-- ==== Sys2Proof/Word.lean ====
section
/-! DEFINITION. The machine's word types: the fixed widths of spec/00_scope.md R6. -/

namespace Sys2Proof

/-- A memory cell, a general register, a timer (R6). -/
abbrev Byte := BitVec 8

/-- The pc, `I`, `SP`, the seed, an instruction word (R6). -/
abbrev Word := BitVec 16

/-- A 12-bit address field `NNN` (spec/30_encoding.md R81). -/
abbrev Addr12 := BitVec 12

/-- A 4-bit field: a register index, a sprite height, a key code (R81). -/
abbrev Nibble := BitVec 4

end Sys2Proof
end

