-- ==== Sys2Proof/Config.lean ====
section
/-! DEFINITION. What an implementation fixes (spec/00_scope.md R5) and the free values.

`Config` is the parameter record; `State.cfg` carries it and no step changes it, so a statement over
every state holds for every configuration (notes/assumptions/1.md). The constants without a body are
free values: nothing can be proved of what they are. -/

namespace Sys2Proof

/-- `FX0A_MODE` (R5, spec/46_key.md R194). -/
inductive Fx0aMode where
  | retry
  | fatal
deriving DecidableEq, Repr

/-- `LOGIC_VF` (R5): what `8XY1`, `8XY2`, `8XY3` do to `VF`. -/
inductive LogicVf where
  | unchanged
  | reset
deriving DecidableEq, Repr

/-- `TIMING_MODE` (R5, spec/60_exceptions.md R250, R253). -/
inductive TimingMode where
  | exact
  | free
deriving DecidableEq, Repr

/-- Which instance of `RND_FN` the configuration has (spec/45_random.md R181, R182): the spec's
unverified reference, or the one the source leaves unstated. -/
inductive RndFn where
  | reference
  | unstated
deriving DecidableEq, Repr

/-- The entries of the cost table `CYC` (spec/70_reset_and_hazards.md R285). A pair of entries that
differ by skip, page crossing or hit is one constructor with a flag. -/
inductive CycEntry where
  | fetch0 | fetch | wait | intBase | intGt | intTt | jp | call
  | cls | ret
  | seVB (skip : Bool) | sneVB (skip : Bool) | seVV (skip : Bool) | sneVV (skip : Bool)
  | ldVB | addVB
  | aluLd | aluOr | aluAnd | aluXor | aluAdd | aluSub | aluShr | aluSubn | aluShl
  | ldIA | addIV (crossed : Bool) | jpV0 (crossed : Bool) | ldFV
  | ldBV (v : Byte) | ldMV (x : Nibble) | ldVM (x : Nibble)
  | rnd
  | skp (skip : Bool) | sknp (skip : Bool) | ldVK (hit : Bool)
  | drw1 (n b : Nat) | drw2 (n on rv : Nat)
  | ldVDT | ldDTV | ldSTV
deriving DecidableEq, Repr

/-- `MEM_SIZE` in its allowed range (R5, decision D1): no other configuration exists. -/
abbrev MemSize := { n : Nat // 0x0400 ≤ n ∧ n ≤ 0x10000 }

/-- The parameters of R5 that a step reads. `LOW_IMAGE`, `RND_SEED0` and the ROM are read by
construction only and are arguments of `Machine.construct`. -/
structure Config where
  memSize   : MemSize
  /-- `FONT_ADDR`, the 16 glyph addresses (spec/44_memory_index.md R163). DESIGN CHOICE
  (notes/assumptions/24.md): the spec gives them no range, and every 16-bit address is admitted. -/
  fontAddr  : Vector Word 16
  fx0aMode  : Fx0aMode
  logicVf   : LogicVf
  rndFn     : RndFn
  /-- The OPEN costs this configuration fixes; an entry that is not listed has an unstated cost. -/
  costs     : List (CycEntry × Nat)
  timing    : TimingMode
  /-- `NUM_FRAMES`; `none`: the frame count does not end the run (R254, decision D40). -/
  numFrames : Option Nat
deriving DecidableEq, Repr

/-! ### The collaborators' answers (spec/60_exceptions.md R255 to R257) -/

/-- One answer of `Input.read_key()` (spec/46_key.md R190). -/
inductive KeyAnswer where
  | key (k : Nibble)
  | none
  | failure
deriving DecidableEq, Repr, Inhabited

/-- One answer of `Display.draw`, `Sound.beep` or `Sound.stop`. -/
inductive Answer where
  | ok
  | failure
deriving DecidableEq, Repr, Inhabited

/-! ### Free values -/

/-- The cost of an OPEN entry of `CYC` that the configuration does not fix (R285, decision D26). -/
opaque Config.unstatedCost : CycEntry → Nat

/-- The OPEN arithmetic of `RND_FN` (R181 items 4 to 6): from the incremented seed and the one table
byte, the new seed and the value. -/
opaque Config.unstatedRnd : Word → Byte → Word × Byte

/-- The answers of `read_key()` after the ones standing ready (decision D34). -/
opaque Config.freeKey : Nat → KeyAnswer

/-- The answers of `draw` after the ones standing ready (decision D34). -/
opaque Config.freeDraw : Nat → Answer

/-- The answers of `beep()` and `stop()` after the ones standing ready (decision D34). -/
opaque Config.freeSound : Nat → Answer

/-- Whether the free scheduler calls `interrupt()` next, after the choices standing ready (R253). -/
opaque Config.freeInterrupt : Nat → Bool

end Sys2Proof
end

