-- ==== Sys2Proof/Syntax.lean ====
section
/-! DEFINITION. The 34 instructions of spec/30_encoding.md R84: their tags and, with operands, their
syntax. Operand fields have the widths of R81, so every operand value is one an encoding admits. -/

namespace Sys2Proof

/-- The mnemonic tags of R84, in the table's order. The decoded-instruction latch holds one
(spec/10_state.md R31). -/
inductive Op where
  | cls | ret | jp | call
  | seVB | sneVB | seVV
  | ldVB | addVB
  | ldVV | orVV | andVV | xorVV | addVV | subVV | shrVV | subnVV | shlVV
  | sneVV
  | ldIA | jpV0 | rnd | drw
  | skp | sknp
  | ldVDT | ldVK | ldDTV | ldSTV | addIV | ldFV | ldBV | ldMV | ldVM
deriving DecidableEq, Repr

/-- An instruction with its operands: one constructor per row of R84. -/
inductive Instr where
  /-- `00E0` CLS -/
  | cls
  /-- `00EE` RET -/
  | ret
  /-- `1NNN` JP addr -/
  | jp (nnn : Addr12)
  /-- `2NNN` CALL addr -/
  | call (nnn : Addr12)
  /-- `3XKK` SE Vx, byte -/
  | seVB (x : Nibble) (kk : Byte)
  /-- `4XKK` SNE Vx, byte -/
  | sneVB (x : Nibble) (kk : Byte)
  /-- `5XY0` SE Vx, Vy -/
  | seVV (x y : Nibble)
  /-- `6XKK` LD Vx, byte -/
  | ldVB (x : Nibble) (kk : Byte)
  /-- `7XKK` ADD Vx, byte -/
  | addVB (x : Nibble) (kk : Byte)
  /-- `8XY0` LD Vx, Vy -/
  | ldVV (x y : Nibble)
  /-- `8XY1` OR Vx, Vy -/
  | orVV (x y : Nibble)
  /-- `8XY2` AND Vx, Vy -/
  | andVV (x y : Nibble)
  /-- `8XY3` XOR Vx, Vy -/
  | xorVV (x y : Nibble)
  /-- `8XY4` ADD Vx, Vy -/
  | addVV (x y : Nibble)
  /-- `8XY5` SUB Vx, Vy -/
  | subVV (x y : Nibble)
  /-- `8XY6` SHR Vx, Vy -/
  | shrVV (x y : Nibble)
  /-- `8XY7` SUBN Vx, Vy -/
  | subnVV (x y : Nibble)
  /-- `8XYE` SHL Vx, Vy -/
  | shlVV (x y : Nibble)
  /-- `9XY0` SNE Vx, Vy -/
  | sneVV (x y : Nibble)
  /-- `ANNN` LD I, addr -/
  | ldIA (nnn : Addr12)
  /-- `BNNN` JP V0, addr -/
  | jpV0 (nnn : Addr12)
  /-- `CXKK` RND Vx, byte -/
  | rnd (x : Nibble) (kk : Byte)
  /-- `DXYN` DRW Vx, Vy, nibble -/
  | drw (x y n : Nibble)
  /-- `EX9E` SKP Vx -/
  | skp (x : Nibble)
  /-- `EXA1` SKNP Vx -/
  | sknp (x : Nibble)
  /-- `FX07` LD Vx, DT -/
  | ldVDT (x : Nibble)
  /-- `FX0A` LD Vx, K -/
  | ldVK (x : Nibble)
  /-- `FX15` LD DT, Vx -/
  | ldDTV (x : Nibble)
  /-- `FX18` LD ST, Vx -/
  | ldSTV (x : Nibble)
  /-- `FX1E` ADD I, Vx -/
  | addIV (x : Nibble)
  /-- `FX29` LD F, Vx -/
  | ldFV (x : Nibble)
  /-- `FX33` LD B, Vx -/
  | ldBV (x : Nibble)
  /-- `FX55` LD [I], Vx -/
  | ldMV (x : Nibble)
  /-- `FX65` LD Vx, [I] -/
  | ldVM (x : Nibble)
deriving DecidableEq, Repr

/-- The tag of an instruction. -/
def Instr.op : Instr → Op
  | .cls => .cls
  | .ret => .ret
  | .jp _ => .jp
  | .call _ => .call
  | .seVB _ _ => .seVB
  | .sneVB _ _ => .sneVB
  | .seVV _ _ => .seVV
  | .ldVB _ _ => .ldVB
  | .addVB _ _ => .addVB
  | .ldVV _ _ => .ldVV
  | .orVV _ _ => .orVV
  | .andVV _ _ => .andVV
  | .xorVV _ _ => .xorVV
  | .addVV _ _ => .addVV
  | .subVV _ _ => .subVV
  | .shrVV _ _ => .shrVV
  | .subnVV _ _ => .subnVV
  | .shlVV _ _ => .shlVV
  | .sneVV _ _ => .sneVV
  | .ldIA _ => .ldIA
  | .jpV0 _ => .jpV0
  | .rnd _ _ => .rnd
  | .drw _ _ _ => .drw
  | .skp _ => .skp
  | .sknp _ => .sknp
  | .ldVDT _ => .ldVDT
  | .ldVK _ => .ldVK
  | .ldDTV _ => .ldDTV
  | .ldSTV _ => .ldSTV
  | .addIV _ => .addIV
  | .ldFV _ => .ldFV
  | .ldBV _ => .ldBV
  | .ldMV _ => .ldMV
  | .ldVM _ => .ldVM

end Sys2Proof
end

