-- ==== Sys2Proof/WellFormed.lean ====
section
/-! DEFINITION. Well-formed instructions. The operand widths are in the types, so the one check is
that the configuration has the instruction: row 27 of spec/30_encoding.md R84 (`FX0A`) is absent from
the table when `FX0A_MODE = fatal` (R86, spec/46_key.md R194). -/

namespace Sys2Proof

/-- The opcode table of a configuration has this row (R84, R86). -/
def Op.available (mode : Fx0aMode) (o : Op) : Bool :=
  match o, mode with
  | .ldVK, .fatal => false
  | _, _ => true

/-- The instruction exists in a configuration with this `FX0A_MODE`. -/
def Instr.wellFormed (mode : Fx0aMode) (i : Instr) : Bool := i.op.available mode

end Sys2Proof
end

