-- ==== Sys2Proof/Decode.lean ====
section
/-! DEFINITION. The decoder and the encoder, both written from the one table of
spec/30_encoding.md R84. -/

namespace Sys2Proof

/-! ### Fields of an instruction word (R81, R82) -/

/-- Two bytes as one big-endian word: the first byte supplies bits 15:8 (spec/20_memory.md R56). -/
def wordOfBytes (hi lo : Byte) : Word := hi ++ lo

/-- `w[15:8]`. -/
def hiByte (w : Word) : Byte := w.extractLsb' 8 8

/-- `w[7:0]`. -/
def loByte (w : Word) : Byte := w.extractLsb' 0 8

/-- `w[15:12]`, the major opcode. -/
def fieldOp (w : Word) : Nibble := w.extractLsb' 12 4

/-- `X = w[11:8]`. -/
def fieldX (w : Word) : Nibble := w.extractLsb' 8 4

/-- `Y = w[7:4]`. -/
def fieldY (w : Word) : Nibble := w.extractLsb' 4 4

/-- `N = w[3:0]`. -/
def fieldN (w : Word) : Nibble := w.extractLsb' 0 4

/-- `KK = w[7:0]`. -/
def fieldKK (w : Word) : Byte := w.extractLsb' 0 8

/-- `NNN = w[11:0]`. -/
def fieldNNN (w : Word) : Addr12 := w.extractLsb' 0 12

/-! ### The opcode table (R84) -/

/-- The tags in the order of R84's rows. -/
def Op.all : List Op :=
  [.cls, .ret, .jp, .call, .seVB, .sneVB, .seVV, .ldVB, .addVB, .ldVV, .orVV, .andVV, .xorVV,
   .addVV, .subVV, .shrVV, .subnVV, .shlVV,
   .sneVV, .ldIA, .jpV0, .rnd, .drw, .skp, .sknp, .ldVDT, .ldVK, .ldDTV, .ldSTV, .addIV, .ldFV,
   .ldBV, .ldMV, .ldVM]

/-- The column "match" of R84. -/
def Op.pattern : Op → Word
  | .cls => 0x00E0
  | .ret => 0x00EE
  | .jp => 0x1000
  | .call => 0x2000
  | .seVB => 0x3000
  | .sneVB => 0x4000
  | .seVV => 0x5000
  | .ldVB => 0x6000
  | .addVB => 0x7000
  | .ldVV => 0x8000
  | .orVV => 0x8001
  | .andVV => 0x8002
  | .xorVV => 0x8003
  | .addVV => 0x8004
  | .subVV => 0x8005
  | .shrVV => 0x8006
  | .subnVV => 0x8007
  | .shlVV => 0x800E
  | .sneVV => 0x9000
  | .ldIA => 0xA000
  | .jpV0 => 0xB000
  | .rnd => 0xC000
  | .drw => 0xD000
  | .skp => 0xE09E
  | .sknp => 0xE0A1
  | .ldVDT => 0xF007
  | .ldVK => 0xF00A
  | .ldDTV => 0xF015
  | .ldSTV => 0xF018
  | .addIV => 0xF01E
  | .ldFV => 0xF029
  | .ldBV => 0xF033
  | .ldMV => 0xF055
  | .ldVM => 0xF065

/-- The instruction formats of R85. -/
inductive Format where
  | F0 | FA | FB | FR | FD | FK
deriving DecidableEq, Repr

/-- The column "format" of R84. -/
def Op.format : Op → Format
  | .cls | .ret => .F0
  | .jp | .call | .ldIA | .jpV0 => .FA
  | .seVB | .sneVB | .ldVB | .addVB | .rnd => .FB
  | .seVV | .ldVV | .orVV | .andVV | .xorVV | .addVV | .subVV | .shrVV | .subnVV | .shlVV | .sneVV => .FR
  | .drw => .FD
  | .skp | .sknp | .ldVDT | .ldVK | .ldDTV | .ldSTV | .addIV | .ldFV | .ldBV | .ldMV | .ldVM => .FK

/-- The fixed bits of a format (R85). -/
def Format.mask : Format → Word
  | .F0 => 0xFFFF
  | .FA => 0xF000
  | .FB => 0xF000
  | .FR => 0xF00F
  | .FD => 0xF000
  | .FK => 0xF0FF

/-- The column "mask" of R84. -/
def Op.mask (o : Op) : Word := o.format.mask

/-- A word is this row of the table (R84): `w & mask = match`. -/
def Op.matchesWord (o : Op) (w : Word) : Bool := w &&& o.mask == o.pattern

/-! ### The decoder -/

/-- `decode(w)` of spec/40_core_cycle.md R102: the tag of the row that matches, or none. -/
def decodeOp (mode : Fx0aMode) (w : Word) : Option Op :=
  Op.all.find? fun o => o.available mode && o.matchesWord w

/-- The instruction of a tag, with `X` and `Y` from two indices and `N`, `KK`, `NNN` from a word: how a
handler reads its operands (R83). -/
def Op.withOperands (x y : Nibble) (w : Word) : Op → Instr
  | .cls => .cls
  | .ret => .ret
  | .jp => .jp (fieldNNN w)
  | .call => .call (fieldNNN w)
  | .seVB => .seVB x (fieldKK w)
  | .sneVB => .sneVB x (fieldKK w)
  | .seVV => .seVV x y
  | .ldVB => .ldVB x (fieldKK w)
  | .addVB => .addVB x (fieldKK w)
  | .ldVV => .ldVV x y
  | .orVV => .orVV x y
  | .andVV => .andVV x y
  | .xorVV => .xorVV x y
  | .addVV => .addVV x y
  | .subVV => .subVV x y
  | .shrVV => .shrVV x y
  | .subnVV => .subnVV x y
  | .shlVV => .shlVV x y
  | .sneVV => .sneVV x y
  | .ldIA => .ldIA (fieldNNN w)
  | .jpV0 => .jpV0 (fieldNNN w)
  | .rnd => .rnd x (fieldKK w)
  | .drw => .drw x y (fieldN w)
  | .skp => .skp x
  | .sknp => .sknp x
  | .ldVDT => .ldVDT x
  | .ldVK => .ldVK x
  | .ldDTV => .ldDTV x
  | .ldSTV => .ldSTV x
  | .addIV => .addIV x
  | .ldFV => .ldFV x
  | .ldBV => .ldBV x
  | .ldMV => .ldMV x
  | .ldVM => .ldVM x

/-- Why bytes are no instruction. -/
inductive DecodeError where
  /-- fewer than the two bytes every instruction has (R80) -/
  | tooShort
  /-- the word matches no row of R84 (R86) -/
  | unknownOpcode (w : Word)
deriving DecidableEq, Repr

/-- The instruction a word is, or the rejection by name (R84, R86). -/
def decode (mode : Fx0aMode) (w : Word) : Except DecodeError Instr :=
  match decodeOp mode w with
  | some o => .ok (o.withOperands (fieldX w) (fieldY w) w)
  | none => .error (.unknownOpcode w)

/-- The decoder on bytes: always exactly two are consumed (R80, R89). -/
def decodeBytes (mode : Fx0aMode) : List Byte → Except DecodeError (Instr × List Byte)
  | hi :: lo :: rest =>
    match decode mode (wordOfBytes hi lo) with
    | .ok i => .ok (i, rest)
    | .error e => .error e
  | _ => .error .tooShort

/-- The host's window on the decoder: the word's bytes in memory order, decoded with all 34 rows of the
table (`FX0A_MODE = retry`). -/
def decodeTableWord (nbits w : Nat) : Option Instr :=
  let word : Word := BitVec.ofNat 16 (w % 2 ^ nbits)
  match decodeBytes .retry [hiByte word, loByte word] with
  | .ok (i, _) => some i
  | .error _ => none

/-! ### The encoder -/

/-- The operand bits of an instruction, each field in its place (R81). -/
def Instr.operandBits : Instr → Word
  | .cls | .ret => 0
  | .jp nnn | .call nnn | .ldIA nnn | .jpV0 nnn => (0 : Nibble) ++ nnn
  | .seVB x kk | .sneVB x kk | .ldVB x kk | .addVB x kk | .rnd x kk => (0 : Nibble) ++ x ++ kk
  | .seVV x y | .ldVV x y | .orVV x y | .andVV x y | .xorVV x y | .addVV x y | .subVV x y | .shrVV x y
  | .subnVV x y | .shlVV x y | .sneVV x y => (0 : Nibble) ++ x ++ y ++ (0 : Nibble)
  | .drw x y n => (0 : Nibble) ++ x ++ y ++ n
  | .skp x | .sknp x | .ldVDT x | .ldVK x | .ldDTV x | .ldSTV x | .addIV x | .ldFV x | .ldBV x | .ldMV x
  | .ldVM x => (0 : Nibble) ++ x ++ (0 : Byte)

/-- The word of an instruction (R84, R90): its row's fixed bits and its operands. -/
def encode (i : Instr) : Word := i.op.pattern ||| i.operandBits

/-- The two bytes of an instruction in memory order (R80). -/
def encodeBytes (i : Instr) : List Byte := [hiByte (encode i), loByte (encode i)]

end Sys2Proof
end

