-- ==== Sys2Proof/Machine/Costs.lean ====
section
/-! DEFINITION. The cycle-cost table `CYC` (spec/70_reset_and_hazards.md R285) and its constraints
(R288). -/

namespace Sys2Proof.Machine

/-- The cost a configuration gives an OPEN entry: the one it lists, or the unstated one. Every entry is
at least 1 (R288). -/
def openCost (c : Config) (e : CycEntry) : Nat :=
  max 1 ((c.costs.lookup e).getD (Config.unstatedCost e))

/-- The skip cost of a compare skip is greater than its no-skip cost (R288). -/
def skipCost (c : Config) (noSkip skip : CycEntry) : Nat :=
  max (openCost c skip) (openCost c noSkip + 1)

/-- `CYC`. The eight stated entries have the source's numbers. An OPEN entry has whatever cost the
configuration gives it, brought into the range R288 allows; every table that meets R288 is one of
these (notes/assumptions/7.md). -/
def cyc (c : Config) : CycEntry → Nat
  | .fetch0  => 40
  | .fetch   => 68
  | .wait    => 1
  | .intBase => 1831
  | .intGt   => 8
  | .intTt   => 4
  | .jp      => 12
  | .call    => 26
  | .seVB true  => skipCost c (.seVB false) (.seVB true)
  | .sneVB true => skipCost c (.sneVB false) (.sneVB true)
  | .seVV true  => skipCost c (.seVV false) (.seVV true)
  | .sneVV true => skipCost c (.sneVV false) (.sneVV true)
  | .addIV true =>
    if openCost c (.addIV true) = openCost c (.addIV false) then openCost c (.addIV false) + 1
    else openCost c (.addIV true)
  | e => openCost c e

end Sys2Proof.Machine
end

