-- ==== Sys2Proof/Machine/Layout.lean ====
section
/-! DEFINITION. The memory layout (spec/20_memory.md R51, decision D2) and the fixed numbers of
spec/00_scope.md R5. Every base is derived from `MEM_SIZE`. -/

namespace Sys2Proof.Machine

/-- `MEM_SIZE`. -/
def memSize (c : Config) : Nat := c.memSize.val

/-- `PROGRAM_ADDR`: where the ROM is loaded and the pc starts. -/
def programAddr : Nat := 0x0200

/-- The first byte of the nominal stack region, 0x30 bytes long (R51). -/
def stackRegionAddr (c : Config) : Nat := memSize c - 0x160

/-- `STACK_ADDR`: the initial stack pointer (conflict C2). -/
def stackAddr (c : Config) : Nat := memSize c - 0x132

/-- `WORK_ADDR`: the 32-byte sprite work area. -/
def workAddr (c : Config) : Nat := memSize c - 0x130

/-- `VAR_ADDR`: the 16-byte variable bank. -/
def varAddr (c : Config) : Nat := memSize c - 0x110

/-- `DISPLAY_ADDR`: the 256-byte framebuffer. -/
def displayAddr (c : Config) : Nat := memSize c - 0x100

/-- The framebuffer's length, which `get_display_size_bytes()` reports (spec/60_exceptions.md R255). -/
def displaySize : Nat := 256

/-- `RND_TABLE_ADDR` (spec/45_random.md R183). -/
def rndTableAddr : Nat := 0x0100

/-- `CYCLE_NS`, nanoseconds in a machine cycle. -/
def cycleNs : Nat := 4540

/-- `FRAME_NS`, nanoseconds in a frame. -/
def frameNs : Nat := 16666667

/-- The parameter values of the spec's test configuration (spec/95_test_vectors.md section 0) and, for
`TIMING_MODE`, R5's reference. `RND_FN`, the OPEN costs and `NUM_FRAMES` stay unstated.
DESIGN CHOICE (notes/assumptions/2.md, 5.md, 6.md, 7.md): unsafe for a claim about runs from reset. -/
def referenceConfig : Config where
  memSize   := ⟨4096, by decide⟩
  fontAddr  := Vector.ofFn fun n => BitVec.ofNat 16 (5 * n.val)
  fx0aMode  := .retry
  logicVf   := .unchanged
  rndFn     := .unstated
  costs     := []
  timing    := .exact
  numFrames := none

end Sys2Proof.Machine
end

