-- ==== Sys2Proof/Machine/State.lean ====
section
/-! DEFINITION. The machine's state (spec/10_state.md R36), as plain data, and the state after reset. -/

namespace Sys2Proof.Machine

/-- The MemoryMap (spec/20_memory.md R50): address and byte pairs, addresses strictly rising, no entry
equal to what an unlisted address reads as. -/
abbrev Memory := List Host.Cell

/-- The core state (R30). -/
inductive CoreState where
  | fetchDecode
  | execute
  | waitInterrupt
deriving DecidableEq, Repr

/-- The phase field of the latch (R31); meaningful for `DRW` only. -/
inductive Phase where
  | one
  | two
deriving DecidableEq, Repr

/-- The decoded-instruction latch (R31). -/
structure Decoded where
  word  : Word
  op    : Option Op
  phase : Phase
deriving DecidableEq, Repr

/-- The direction of a memory access. -/
inductive Dir where
  | read
  | write
deriving DecidableEq, Repr

/-- The four fatal errors with their info (spec/60_exceptions.md R230). -/
inductive FatalError where
  | unknownOpcode (word : Word) (pc : Word)
  | memoryBounds (addr n : Nat) (dir : Dir)
  | displayFailure
  | inputFailure
deriving DecidableEq, Repr

/-- The run status (R34). -/
inductive RunStatus where
  | running
  | fatal (e : FatalError)
deriving DecidableEq, Repr

/-- The two calls on the Sound collaborator (spec/60_exceptions.md R257). -/
inductive SoundCall where
  | beep
  | stop
deriving DecidableEq, Repr

/-- What crosses the block's boundary outwards (R259), and the advisory event of the block (R233). -/
inductive Event where
  /-- `Display.draw` with the bytes it was handed, and its answer (R237, R255). -/
  | draw (framebuffer : List Byte) (answer : Answer)
  /-- `Input.read_key()` and its answer (R256). -/
  | poll (answer : KeyAnswer)
  /-- `Sound.beep()` or `Sound.stop()` and its answer (R257). -/
  | sound (call : SoundCall) (answer : Answer)
  /-- The advisory event `SoundFailure` (R233). -/
  | soundFailure (call : SoundCall)
deriving DecidableEq, Repr

/-- The collaborators' answers and the free scheduler's choices that stand ready, oldest first, and the
number of free values drawn once a list is empty. The model's own field (notes/assumptions/8.md, 9.md). -/
structure Inputs where
  keys       : List KeyAnswer
  draws      : List Answer
  sounds     : List Answer
  /-- `TIMING_MODE = free`: whether the next call is `interrupt()` (R253). -/
  interrupts : List Bool
  drawn      : Nat
deriving DecidableEq, Repr

/-- The frame scheduler's data (R250): `t` in nanoseconds, and how many frames have been opened. Before
a frame's interrupt, `t - FRAME_NS` is R250's `carry`. -/
structure Sched where
  t      : Nat
  frames : Nat
deriving DecidableEq, Repr

/-- Everything the spec gives the block (R36), the scheduler's data, and the boundary of the block.
`V0 .. VF` are memory bytes (R20) and have no field of their own. -/
structure State where
  mem            : Memory
  pc             : Word
  /-- the index register `I` -/
  i              : Word
  sp             : Word
  generalTimer   : Byte
  toneTimer      : Byte
  seed           : Word
  displayPointer : Word
  core           : CoreState
  dec            : Decoded
  vx             : Nibble
  vy             : Nibble
  halted         : RunStatus
  /-- the parameters, which no step changes -/
  cfg            : Config
  sched          : Sched
  /-- the machine cycles the last call reported (spec/40_core_cycle.md R100) -/
  cost           : Nat
  inputs         : Inputs
  /-- newest first -/
  events         : List Event
deriving DecidableEq, Repr

/-- Why the machine stops. -/
inductive Fault where
  /-- A fatal error (R230, R231), carrying the final state (R254): raised by the fetch, by a memory
  access past `MEM_SIZE`, by a failing draw, by a failing poll, and by every further step of a halted
  block. The spec's own stop: safe. -/
  | fatal (e : FatalError) (final : State)
  /-- The run is over: all `NUM_FRAMES` frames have finished (R254), so the scheduler makes no further
  call. Carries the final state. Raised by the step. The spec's own end: safe. -/
  | completed (final : State)
deriving DecidableEq, Repr

/-- Why an instruction has no meaning. -/
inductive Refusal where
  /-- Raised by `exec` for an instruction that is not modelled yet: safe. -/
  | notModelled (mnemonic : String)
  /-- Raised by `cycle` in state Execute with an empty latch, which no fetch leaves (R31, R101) and the
  spec gives no meaning: safe. -/
  | emptyLatch
deriving DecidableEq, Repr

/-- The state after construction (spec/70_reset_and_hazards.md R270) with the reference configuration,
no ROM, and a `LOW_IMAGE` of zeros. `t = FRAME_NS` is a carry of 0 before the first frame (R250).
DESIGN CHOICE: the configuration and low image (notes/assumptions/2.md, 3.md), the seed (4.md), the
model's own fields cost (15.md), inputs (8.md, 9.md) and events (13.md). -/
def State.reset : State where
  mem            := []
  pc             := BitVec.ofNat 16 programAddr
  i              := 0x0000
  sp             := BitVec.ofNat 16 (stackAddr referenceConfig)
  generalTimer   := 0x00
  toneTimer      := 0x00
  seed           := 0x0000
  displayPointer := BitVec.ofNat 16 (displayAddr referenceConfig)
  core           := .fetchDecode
  dec            := { word := 0x0000, op := none, phase := .one }
  vx             := 0
  vy             := 0
  halted         := .running
  cfg            := referenceConfig
  sched          := { t := frameNs, frames := 0 }
  cost           := 0
  inputs         := { keys := [.none], draws := [.ok], sounds := [.ok], interrupts := [], drawn := 0 }
  events         := []

end Sys2Proof.Machine
end

