-- ==== Sys2Proof/Machine/Ops.lean ====
section
/-! DEFINITION. The shared operations over memory, registers and the collaborators, and raising a fatal
error. The block has no trap whose entry it could take and no return from one
(spec/60_exceptions.md R235): `raise` is the whole of its error handling. -/

namespace Sys2Proof.Machine

/-- What a call answers. -/
abbrev Result := Host.Outcome State Fault Refusal

/-! ### Memory as data (spec/20_memory.md R50, R59) -/

/-- What a byte that nothing has written reads as: 0x00 (R270 of spec/70_reset_and_hazards.md). -/
def Memory.unlisted : Byte := 0x00

/-- One byte. -/
def Memory.read : Memory → Nat → Byte
  | [], _ => Memory.unlisted
  | (k, v) :: m, a => if k = a then v else Memory.read m a

/-- Put a cell in its place by address. -/
def Memory.insert : Memory → Nat → Byte → Memory
  | [], a, v => [(a, v)]
  | (k, w) :: m, a, v => if a < k then (a, v) :: (k, w) :: m else (k, w) :: Memory.insert m a v

/-- Write one byte, keeping the canonical form: a byte equal to what an unlisted one reads as is not
listed. -/
def Memory.write (m : Memory) (a : Nat) (v : Byte) : Memory :=
  let rest := m.filter fun c => c.1 != a
  if v = Memory.unlisted then rest else Memory.insert rest a v

/-- `n` bytes in ascending address order. -/
def Memory.readBytes (m : Memory) (a n : Nat) : List Byte :=
  (List.range n).map fun k => m.read (a + k)

/-- Bytes in ascending address order. -/
def Memory.writeBytes : Memory → Nat → List Byte → Memory
  | m, _, [] => m
  | m, a, b :: bs => Memory.writeBytes (m.write a b) (a + 1) bs

/-- The big-endian 16-bit value at `a` and `a + 1` (R56). -/
def Memory.readWord (m : Memory) (a : Nat) : Word := wordOfBytes (m.read a) (m.read (a + 1))

/-- The canonical form: addresses strictly rising, no entry equal to what an unlisted one reads as. -/
abbrev Memory.wf (m : Memory) : Prop :=
  m.Pairwise (fun c d => c.1 < d.1) ∧ ∀ c ∈ m, c.2 ≠ Memory.unlisted

/-- No byte is listed at or past `n`. -/
abbrev Memory.below (m : Memory) (n : Nat) : Prop := ∀ c ∈ m, c.1 < n

/-! ### Bounded access (R54, R55) -/

/-- The one check an access makes: the whole range against `MEM_SIZE`, without wrap. -/
def checkBounds (addr n : Nat) (dir : Dir) (s : State) : Except FatalError Unit :=
  if addr + n > memSize s.cfg then .error (.memoryBounds addr n dir) else .ok ()

/-- `MemRead(addr, n)` (R55). -/
def memRead (addr n : Nat) (s : State) : Except FatalError (List Byte) := do
  checkBounds addr n .read s
  return s.mem.readBytes addr n

/-- `MemRead(addr, 2)`, big-endian (R55, R56). -/
def memReadWord (addr : Nat) (s : State) : Except FatalError Word := do
  checkBounds addr 2 .read s
  return s.mem.readWord addr

/-- `MemWrite(addr, n, v)`: the bound is checked before any byte is written (R54, decision D5). -/
def memWrite (addr : Nat) (bytes : List Byte) (s : State) : Except FatalError State := do
  checkBounds addr bytes.length .write s
  return { s with mem := s.mem.writeBytes addr bytes }

/-! ### Registers -/

/-- The address of `V[x]` (spec/10_state.md R20). -/
def vAddr (c : Config) (x : Nibble) : Nat := varAddr c + x.toNat

/-- `V[x]` (R21). The bank lies inside memory under every configuration, so the access has no check. -/
def State.v (s : State) (x : Nibble) : Byte := s.mem.read (vAddr s.cfg x)

/-- `V[x] <- b` (R21). -/
def State.setV (s : State) (x : Nibble) (b : Byte) : State :=
  { s with mem := s.mem.write (vAddr s.cfg x) b }

/-- `cost <- c`: what the call reports. -/
def State.report (s : State) (c : Nat) : State := { s with cost := c }

/-- `SKIP` (spec/40_core_cycle.md R107). -/
def State.skip (s : State) : State := { s with pc := s.pc + 2 }

/-! ### The collaborators (spec/60_exceptions.md R255 to R257, decision D34) -/

/-- The next answer of `read_key()`. -/
def Inputs.nextKey (i : Inputs) : KeyAnswer :=
  match i.keys with
  | a :: _ => a
  | [] => Config.freeKey i.drawn

/-- The answers left after one of `read_key()`. -/
def Inputs.dropKey (i : Inputs) : Inputs :=
  match i.keys with
  | _ :: rest => { i with keys := rest }
  | [] => { i with drawn := i.drawn + 1 }

/-- The next answer of `draw`. -/
def Inputs.nextDraw (i : Inputs) : Answer :=
  match i.draws with
  | a :: _ => a
  | [] => Config.freeDraw i.drawn

/-- The answers left after one of `draw`. -/
def Inputs.dropDraw (i : Inputs) : Inputs :=
  match i.draws with
  | _ :: rest => { i with draws := rest }
  | [] => { i with drawn := i.drawn + 1 }

/-- The next answer of `beep()` or `stop()`. -/
def Inputs.nextSound (i : Inputs) : Answer :=
  match i.sounds with
  | a :: _ => a
  | [] => Config.freeSound i.drawn

/-- The answers left after one of `beep()` or `stop()`. -/
def Inputs.dropSound (i : Inputs) : Inputs :=
  match i.sounds with
  | _ :: rest => { i with sounds := rest }
  | [] => { i with drawn := i.drawn + 1 }

/-- Whether the free scheduler's next call is `interrupt()` (R253). -/
def Inputs.nextInterrupt (i : Inputs) : Bool :=
  match i.interrupts with
  | b :: _ => b
  | [] => Config.freeInterrupt i.drawn

/-- The choices left after one of the free scheduler's. -/
def Inputs.dropInterrupt (i : Inputs) : Inputs :=
  match i.interrupts with
  | _ :: rest => { i with interrupts := rest }
  | [] => { i with drawn := i.drawn + 1 }

/-- The state after one `read_key()` call, answered `s.inputs.nextKey` (spec/46_key.md R190). -/
def State.polled (s : State) : State :=
  { s with inputs := s.inputs.dropKey, events := .poll s.inputs.nextKey :: s.events }

/-- The state after one `draw` call that was handed `fb`, answered `s.inputs.nextDraw` (R237, R255). -/
def State.drawn (s : State) (fb : List Byte) : State :=
  { s with inputs := s.inputs.dropDraw, events := .draw fb s.inputs.nextDraw :: s.events }

/-- One call on the Sound collaborator. A failure is the advisory event `SoundFailure` and changes no
state of the block (R233, R257). -/
def State.callSound (s : State) (call : SoundCall) : State :=
  let answered : List Event := .sound call s.inputs.nextSound :: s.events
  { s with
    inputs := s.inputs.dropSound
    events := match s.inputs.nextSound with
      | .ok => answered
      | .failure => .soundFailure call :: answered }

/-- `SOUND_EDGE(old, new)` (spec/48_timer.md R223). -/
def soundEdge (old new : Byte) (s : State) : State :=
  if old = 0 ∧ new ≠ 0 then s.callSound .beep
  else if old ≠ 0 ∧ new = 0 then s.callSound .stop
  else s

/-! ### Raising a fatal error, and executing a handler -/

/-- `raise Fatal(kind, info)` (R231): the call stops, `halted` is set, and the state is final. -/
def raise (e : FatalError) (s : State) : Result :=
  .fault (.fatal e { s with halted := .fatal e })

/-- What a handler that raises leaves at the block's boundary: a poll that failed was made, so its answer
is taken and logged (R256, R259; DEDUCED, notes/assumptions/13.md). The state of the block is the one before
the step (R232). -/
def State.afterFailing (s : State) : FatalError → State
  | .inputFailure => s.polled
  | _ => s

/-- `EXECUTE` (spec/40_core_cycle.md R103): `state <- FetchDecode` before the handler. A handler that
raises leaves the block's state as it was before the step (spec/60_exceptions.md R232). -/
def execute (s : State) (handler : State → Except FatalError State) : Result :=
  match handler { s with core := .fetchDecode } with
  | .ok t => .next t
  | .error e => raise e (s.afterFailing e)

end Sys2Proof.Machine
end

