-- ==== Sys2Proof/Machine/Flags.lean ====
section
/-! DEFINITION. Every flag computation: what `VF` receives (spec/10_state.md R22), and the
page-crossing and collision tests. -/

namespace Sys2Proof.Machine

/-- A flag as a register byte. -/
def flagByte (b : Bool) : Byte := if b then 1 else 0

/-- Unsigned overflow past 0xFF (spec/43_arith.md R148). -/
def carryOut (a b : Byte) : Bool := a.toNat + b.toNat > 0xFF

/-- `a - b` needs no borrow (R149, R151): equal operands are not a borrow. -/
def noBorrow (a b : Byte) : Bool := a.toNat ≥ b.toNat

/-- The bit a right shift drops (R150). -/
def rightShiftOut (b : Byte) : Bool := b.getLsbD 0

/-- The bit a left shift drops (R152). -/
def leftShiftOut (b : Byte) : Bool := b.getLsbD 7

/-- Adding `v` to `base` crosses a 256-byte page (spec/44_memory_index.md R161, decision D46). -/
def pageCrossed (base : Word) (v : Byte) : Bool := (loByte base).toNat + v.toNat > 0xFF

/-- A set pixel is cleared by the XOR (spec/47_sprite.md R209, conflict C1). -/
def collides (old v : Byte) : Bool := old &&& v != 0

/-- `VF` after a logic instruction (R145, decision D14). -/
def logicFlag (s : State) : State :=
  match s.cfg.logicVf with
  | .unchanged => s
  | .reset => s.setV 0xF 0

end Sys2Proof.Machine
end

