-- ==== Sys2Proof/Machine/Operands.lean ====
section
/-! DEFINITION. Operand forms beyond a plain register or immediate: the latched instruction, the sprite
position, the shifted rows and the framebuffer bytes they meet, the decimal digits, the key nibble. -/

namespace Sys2Proof.Machine

/-- The latched instruction: the tag with `X`, `Y` from `vx`, `vy` and the rest from `dec.word`
(spec/30_encoding.md R83). -/
def State.latched (s : State) : Option Instr :=
  s.dec.op.map (Op.withOperands s.vx s.vy s.dec.word)

/-- `NNN` as a 16-bit value (R82). -/
def zextAddr (nnn : Addr12) : Word := nnn.setWidth 16

/-- A register byte as a 16-bit addend. -/
def zextByte (b : Byte) : Word := b.setWidth 16

/-- The key a register byte names: its low nibble (spec/46_key.md R191, decision D16). -/
def keyOf (v : Byte) : Nibble := v.extractLsb' 0 4

/-- The glyph a register byte names (spec/44_memory_index.md R163). -/
def fontAddrOf (c : Config) (v : Byte) : Word := c.fontAddr[(keyOf v).toNat]'(keyOf v).isLt

/-- The three decimal digits, hundreds first (R164). -/
def bcdDigits (v : Byte) : List Byte :=
  [BitVec.ofNat 8 (v.toNat / 100), BitVec.ofNat 8 (v.toNat / 10 % 10), BitVec.ofNat 8 (v.toNat % 10)]

/-! ### Sprite position (spec/47_sprite.md R201) -/

/-- `x = V[X] & 0x3F`. -/
def spriteX (v : Byte) : Byte := v &&& 0x3F

/-- `y = V[Y] & 0x1F`. -/
def spriteY (v : Byte) : Nat := (v &&& 0x1F).toNat

/-- `b = x & 0x07`, the bit offset within a byte. -/
def spriteBit (v : Byte) : Nat := (spriteX v &&& 0x07).toNat

/-- `col = x >> 3`, the byte column. -/
def spriteCol (v : Byte) : Nat := (spriteX v >>> 3).toNat

/-- The work-area bytes of a sprite shifted by `b`: left and right byte of each row (R203, R204). -/
def workBytes (rows : List Byte) (b : Nat) : List Byte :=
  rows.flatMap fun row =>
    let s := zextByte row <<< (8 - b)
    [hiByte s, loByte s]

/-- The sprite row `k` is on the screen (R208). -/
def rowOnScreen (y k : Nat) : Bool := y + k ≤ 31

/-- The framebuffer bytes phase two meets, in its order, each with the work byte XORed into it: rows
off the bottom and right bytes off the right edge are left out (R206 to R208). -/
def spriteBlits (display y col n : Nat) (work : List Byte) : List (Nat × Byte) :=
  (List.range n).flatMap fun k =>
    if rowOnScreen y k then
      let a := display + 8 * (y + k) + col
      if col < 7 then [(a, work.getD (2 * k) 0), (a + 1, work.getD (2 * k + 1) 0)]
      else [(a, work.getD (2 * k) 0)]
    else []

/-- `on`, the number of rows drawn (R210). -/
def rowsDrawn (y n : Nat) : Nat := ((List.range n).filter (rowOnScreen y)).length

/-- `rv`, the number of drawn rows whose right byte was drawn (R210). -/
def rightBytesDrawn (y col n : Nat) : Nat := if col < 7 then rowsDrawn y n else 0

end Sys2Proof.Machine
end

