-- ==== Sys2Proof/Machine/Arith.lean ====
section
/-! DEFINITION. Arithmetic and logic instructions (spec/43_arith.md). All operands are read before any
register is written (R140); `V[X]` is written before `VF` (R141). -/

namespace Sys2Proof.Machine

/-- Write a result to `V[X]`, then a flag to `VF` (R141). -/
def setResultFlag (x : Nibble) (result : Byte) (flag : Bool) (s : State) : State :=
  (s.setV x result).setV 0xF (flagByte flag)

/-- `6XKK` LD Vx, byte (R142). -/
def execLdVB (x : Nibble) (kk : Byte) (s : State) : Result :=
  execute s fun s => return (s.setV x kk).report (cyc s.cfg .ldVB)

/-- `7XKK` ADD Vx, byte (R143): no flag. -/
def execAddVB (x : Nibble) (kk : Byte) (s : State) : Result :=
  execute s fun s => return (s.setV x (s.v x + kk)).report (cyc s.cfg .addVB)

/-- `8XY0` LD Vx, Vy (R144). -/
def execLdVV (x y : Nibble) (s : State) : Result :=
  execute s fun s => return (s.setV x (s.v y)).report (cyc s.cfg .aluLd)

/-- `8XY1` OR Vx, Vy (R145). -/
def execOrVV (x y : Nibble) (s : State) : Result :=
  execute s fun s => return (logicFlag (s.setV x (s.v x ||| s.v y))).report (cyc s.cfg .aluOr)

/-- `8XY2` AND Vx, Vy (R146). -/
def execAndVV (x y : Nibble) (s : State) : Result :=
  execute s fun s => return (logicFlag (s.setV x (s.v x &&& s.v y))).report (cyc s.cfg .aluAnd)

/-- `8XY3` XOR Vx, Vy (R147). -/
def execXorVV (x y : Nibble) (s : State) : Result :=
  execute s fun s => return (logicFlag (s.setV x (s.v x ^^^ s.v y))).report (cyc s.cfg .aluXor)

/-- `8XY4` ADD Vx, Vy (R148). -/
def execAddVV (x y : Nibble) (s : State) : Result :=
  execute s fun s =>
    let a := s.v x
    let b := s.v y
    return (setResultFlag x (a + b) (carryOut a b) s).report (cyc s.cfg .aluAdd)

/-- `8XY5` SUB Vx, Vy (R149). -/
def execSubVV (x y : Nibble) (s : State) : Result :=
  execute s fun s =>
    let a := s.v x
    let b := s.v y
    return (setResultFlag x (a - b) (noBorrow a b) s).report (cyc s.cfg .aluSub)

/-- `8XY6` SHR Vx, Vy (R150): the operand is `VY`. -/
def execShrVV (x y : Nibble) (s : State) : Result :=
  execute s fun s =>
    let b := s.v y
    return (setResultFlag x (b >>> 1) (rightShiftOut b) s).report (cyc s.cfg .aluShr)

/-- `8XY7` SUBN Vx, Vy (R151). -/
def execSubnVV (x y : Nibble) (s : State) : Result :=
  execute s fun s =>
    let a := s.v x
    let b := s.v y
    return (setResultFlag x (b - a) (noBorrow b a) s).report (cyc s.cfg .aluSubn)

/-- `8XYE` SHL Vx, Vy (R152): the operand is `VY`. -/
def execShlVV (x y : Nibble) (s : State) : Result :=
  execute s fun s =>
    let b := s.v y
    return (setResultFlag x (b <<< 1) (leftShiftOut b) s).report (cyc s.cfg .aluShl)

end Sys2Proof.Machine
end

