-- ==== Sys2Proof/Machine/Control.lean ====
section
/-! DEFINITION. Control instructions (spec/41_control.md). -/

namespace Sys2Proof.Machine

/-- `00E0` CLS (R120). -/
def execCls (s : State) : Result :=
  execute s fun s => do
    let t ← memWrite s.displayPointer.toNat (List.replicate displaySize 0x00) s
    return t.report (cyc s.cfg .cls)

/-- `00EE` RET (R121): `SP` is written after the read has succeeded (conflict C6). -/
def execRet (s : State) : Result :=
  execute s fun s => do
    let a := s.sp + 2
    let target ← memReadWord a.toNat s
    return { s with pc := target, sp := a }.report (cyc s.cfg .ret)

/-- `1NNN` JP addr (R122). -/
def execJp (nnn : Addr12) (s : State) : Result :=
  execute s fun s => return { s with pc := zextAddr nnn }.report (cyc s.cfg .jp)

/-- `2NNN` CALL addr (R123): the push is at the pre-decrement `SP` (decision D3). -/
def execCall (nnn : Addr12) (s : State) : Result :=
  execute s fun s => do
    let t ← memWrite s.sp.toNat [hiByte s.pc, loByte s.pc] s
    return { t with sp := s.sp - 2, pc := zextAddr nnn }.report (cyc s.cfg .call)

end Sys2Proof.Machine
end

