-- ==== Sys2Proof/Machine/Skip.lean ====
section
/-! DEFINITION. Skip and compare instructions (spec/42_skip.md). -/

namespace Sys2Proof.Machine

/-- Skip or not, each at its cost. -/
def skipIf (cond : Bool) (entry : Bool → CycEntry) (s : State) : State :=
  (if cond then s.skip else s).report (cyc s.cfg (entry cond))

/-- `3XKK` SE Vx, byte (R130). -/
def execSeVB (x : Nibble) (kk : Byte) (s : State) : Result :=
  execute s fun s => return skipIf (s.v x == kk) .seVB s

/-- `4XKK` SNE Vx, byte (R131). -/
def execSneVB (x : Nibble) (kk : Byte) (s : State) : Result :=
  execute s fun s => return skipIf (s.v x != kk) .sneVB s

/-- `5XY0` SE Vx, Vy (R132). -/
def execSeVV (x y : Nibble) (s : State) : Result :=
  execute s fun s => return skipIf (s.v x == s.v y) .seVV s

/-- `9XY0` SNE Vx, Vy (R133). -/
def execSneVV (x y : Nibble) (s : State) : Result :=
  execute s fun s => return skipIf (s.v x != s.v y) .sneVV s

end Sys2Proof.Machine
end

