-- ==== Sys2Proof/Machine/Key.lean ====
section
/-! DEFINITION. Key input instructions (spec/46_key.md). Each polls once and before it writes. -/

namespace Sys2Proof.Machine

/-- One poll: its answer and the state after it, or the fatal error of a failing poll (R191). -/
def poll (s : State) : Except FatalError (KeyAnswer × State) :=
  match s.inputs.nextKey with
  | .failure => .error .inputFailure
  | a => .ok (a, s.polled)

/-- `pressed(v)` for a poll's answer (R191). -/
def pressed (v : Byte) (a : KeyAnswer) : Bool := a == .key (keyOf v)

/-- `EX9E` SKP Vx (R192). -/
def execSkp (x : Nibble) (s : State) : Result :=
  execute s fun s => do
    let (a, t) ← poll s
    return skipIf (pressed (s.v x) a) .skp t

/-- `EXA1` SKNP Vx (R193). -/
def execSknp (x : Nibble) (s : State) : Result :=
  execute s fun s => do
    let (a, t) ← poll s
    return skipIf (!pressed (s.v x) a) .sknp t

/-- `FX0A` LD Vx, K in retry mode (R194): a miss sends the pc back to this word. In fatal mode no word
decodes to it (spec/30_encoding.md R86). -/
def execLdVK (x : Nibble) (s : State) : Result :=
  execute s fun s => do
    let (a, t) ← poll s
    match a with
    | .key k => return (t.setV x (k.setWidth 8)).report (cyc s.cfg (.ldVK true))
    | _ => return { t with pc := s.pc - 2 }.report (cyc s.cfg (.ldVK false))

end Sys2Proof.Machine
end

