-- ==== Sys2Proof/Machine/MemoryIndex.lean ====
section
/-! DEFINITION. Memory and index instructions (spec/44_memory_index.md). -/

namespace Sys2Proof.Machine

/-- `ANNN` LD I, addr (R160). -/
def execLdIA (nnn : Addr12) (s : State) : Result :=
  execute s fun s => return { s with i := zextAddr nnn }.report (cyc s.cfg .ldIA)

/-- `FX1E` ADD I, Vx (R161): `VF` is not written (decision D38). -/
def execAddIV (x : Nibble) (s : State) : Result :=
  execute s fun s =>
    let v := s.v x
    return { s with i := s.i + zextByte v }.report (cyc s.cfg (.addIV (pageCrossed s.i v)))

/-- `BNNN` JP V0, addr (R162): the sum is not reduced to 12 bits (decision D37). -/
def execJpV0 (nnn : Addr12) (s : State) : Result :=
  execute s fun s =>
    let v := s.v 0
    return { s with pc := zextAddr nnn + zextByte v }.report
      (cyc s.cfg (.jpV0 (pageCrossed (zextAddr nnn) v)))

/-- `FX29` LD F, Vx (R163). -/
def execLdFV (x : Nibble) (s : State) : Result :=
  execute s fun s => return { s with i := fontAddrOf s.cfg (s.v x) }.report (cyc s.cfg .ldFV)

/-- `FX33` LD B, Vx (R164): `I` is unchanged (decision D29). -/
def execLdBV (x : Nibble) (s : State) : Result :=
  execute s fun s => do
    let v := s.v x
    let t ← memWrite s.i.toNat (bcdDigits v) s
    return t.report (cyc s.cfg (.ldBV v))

/-- `FX55` LD [I], Vx (R165): a snapshot of the registers is stored (decision D30). -/
def execLdMV (x : Nibble) (s : State) : Result :=
  execute s fun s => do
    let vals := s.mem.readBytes (varAddr s.cfg) (x.toNat + 1)
    let t ← memWrite s.i.toNat vals s
    return { t with i := s.i + BitVec.ofNat 16 (x.toNat + 1) }.report (cyc s.cfg (.ldMV x))

/-- `FX65` LD Vx, [I] (R166): a snapshot of memory is loaded (decision D30). -/
def execLdVM (x : Nibble) (s : State) : Result :=
  execute s fun s => do
    let vals ← memRead s.i.toNat (x.toNat + 1) s
    return { s with
      mem := s.mem.writeBytes (varAddr s.cfg) vals
      i := s.i + BitVec.ofNat 16 (x.toNat + 1) }.report (cyc s.cfg (.ldVM x))

end Sys2Proof.Machine
end

