-- ==== Sys2Proof/Machine/Random.lean ====
section
/-! DEFINITION. The random instruction (spec/45_random.md). -/

namespace Sys2Proof.Machine

/-- The part of `RND_REF` after the table read (R182): from the incremented seed and the table byte,
the new seed and the value. -/
def rndReference (s1 : Word) (r : Byte) : Word × Byte :=
  let t1 := hiByte s1 + r
  let c := carryOut (hiByte s1) r
  let h := flagByte c <<< 7 ||| t1 >>> 1
  let t2 := h + t1
  (wordOfBytes t2 (loByte s1), t2)

/-- `RND_FN(seed, T)` (R181): increment the seed, read one table byte at the low byte, combine. The
combination is the reference's or the one the source leaves open (notes/assumptions/6.md). -/
def rndFn (c : Config) (seed : Word) (table : Byte → Byte) : Word × Byte :=
  let s1 := seed + 1
  let r := table (loByte s1)
  match c.rndFn with
  | .reference => rndReference s1 r
  | .unstated => Config.unstatedRnd s1 r

/-- `T(j)`: the live table byte (R183). The table lies inside memory under every configuration, so the
access has no check (R180). -/
def rndTable (s : State) (j : Byte) : Byte := s.mem.read (rndTableAddr + j.toNat)

/-- `CXKK` RND Vx, byte (R180). -/
def execRnd (x : Nibble) (kk : Byte) (s : State) : Result :=
  execute s fun s =>
    let r := rndFn s.cfg s.seed (rndTable s)
    return ({ s with seed := r.1 }.setV x (r.2 &&& kk)).report (cyc s.cfg .rnd)

end Sys2Proof.Machine
end

