-- ==== Sys2Proof/Machine/Sprite.lean ====
section
/-! DEFINITION. The sprite-drawing engine (spec/47_sprite.md). -/

namespace Sys2Proof.Machine

/-- Phase one (R203): copy the shifted sprite into the work area, then wait for the interrupt (R205).
The work area lies inside memory under every configuration, so its write has no check. -/
def drwPhaseOne (x n : Nibble) (s : State) : Except FatalError State := do
  let b := spriteBit (s.v x)
  let rows ← if n = 0 then pure [] else memRead s.i.toNat n.toNat s
  return { s with
    mem := s.mem.writeBytes (workAddr s.cfg) (workBytes rows b)
    dec := { s.dec with phase := .two }
    core := .waitInterrupt }.report (cyc s.cfg (.drw1 n.toNat b))

/-- `XOR_BYTE(a, v)` with the collision flag so far (R206, R209). -/
def xorByte (acc : State × Bool) (blit : Nat × Byte) : Except FatalError (State × Bool) := do
  checkBounds blit.1 1 .read acc.1
  let old := acc.1.mem.read blit.1
  let t ← memWrite blit.1 [old ^^^ blit.2] acc.1
  return (t, acc.2 || collides old blit.2)

/-- Phase two (R206): XOR the work area into the framebuffer, then write the collision flag. -/
def drwPhaseTwo (x y n : Nibble) (s : State) : Except FatalError State := do
  let row := spriteY (s.v y)
  let col := spriteCol (s.v x)
  let work := s.mem.readBytes (workAddr s.cfg) (2 * n.toNat)
  let (t, coll) ← (spriteBlits s.displayPointer.toNat row col n.toNat work).foldlM xorByte (s, false)
  return (t.setV 0xF (flagByte coll)).report
    (cyc s.cfg (.drw2 n.toNat (rowsDrawn row n.toNat) (rightBytesDrawn row col n.toNat)))

/-- `DXYN` DRW Vx, Vy, nibble (R200): the latch says which phase this execute runs. -/
def execDrw (x y n : Nibble) (s : State) : Result :=
  match s.dec.phase with
  | .one => execute s (drwPhaseOne x n)
  | .two => execute s (drwPhaseTwo x y n)

end Sys2Proof.Machine
end

