-- ==== Sys2Proof/Machine/Timer.lean ====
section
/-! DEFINITION. Timer instructions (spec/48_timer.md). -/

namespace Sys2Proof.Machine

/-- `FX07` LD Vx, DT (R220). -/
def execLdVDT (x : Nibble) (s : State) : Result :=
  execute s fun s => return (s.setV x s.generalTimer).report (cyc s.cfg .ldVDT)

/-- `FX15` LD DT, Vx (R221). -/
def execLdDTV (x : Nibble) (s : State) : Result :=
  execute s fun s => return { s with generalTimer := s.v x }.report (cyc s.cfg .ldDTV)

/-- `FX18` LD ST, Vx (R222). -/
def execLdSTV (x : Nibble) (s : State) : Result :=
  execute s fun s =>
    return (soundEdge s.toneTimer (s.v x) { s with toneTimer := s.v x }).report (cyc s.cfg .ldSTV)

end Sys2Proof.Machine
end

