-- ==== Sys2Proof/Machine/Dispatch.lean ====
section
/-! DEFINITION. One arm per instruction of spec/30_encoding.md R84, each a call of its meaning. -/

namespace Sys2Proof.Machine

def exec (i : Instr) (s : State) : Host.Outcome State Fault Refusal :=
  match i with
  | .cls => Sys2Proof.Machine.execCls s
  | .ret => Sys2Proof.Machine.execRet s
  | .jp nnn => Sys2Proof.Machine.execJp nnn s
  | .call nnn => Sys2Proof.Machine.execCall nnn s
  | .seVB x kk => Sys2Proof.Machine.execSeVB x kk s
  | .sneVB x kk => Sys2Proof.Machine.execSneVB x kk s
  | .seVV x y => Sys2Proof.Machine.execSeVV x y s
  | .ldVB x kk => Sys2Proof.Machine.execLdVB x kk s
  | .addVB x kk => Sys2Proof.Machine.execAddVB x kk s
  | .ldVV x y => Sys2Proof.Machine.execLdVV x y s
  | .orVV x y => Sys2Proof.Machine.execOrVV x y s
  | .andVV x y => Sys2Proof.Machine.execAndVV x y s
  | .xorVV x y => Sys2Proof.Machine.execXorVV x y s
  | .addVV x y => Sys2Proof.Machine.execAddVV x y s
  | .subVV x y => Sys2Proof.Machine.execSubVV x y s
  | .shrVV x y => Sys2Proof.Machine.execShrVV x y s
  | .subnVV x y => Sys2Proof.Machine.execSubnVV x y s
  | .shlVV x y => Sys2Proof.Machine.execShlVV x y s
  | .sneVV x y => Sys2Proof.Machine.execSneVV x y s
  | .ldIA nnn => Sys2Proof.Machine.execLdIA nnn s
  | .jpV0 nnn => Sys2Proof.Machine.execJpV0 nnn s
  | .rnd x kk => Sys2Proof.Machine.execRnd x kk s
  | .drw x y n => Sys2Proof.Machine.execDrw x y n s
  | .skp x => Sys2Proof.Machine.execSkp x s
  | .sknp x => Sys2Proof.Machine.execSknp x s
  | .ldVDT x => Sys2Proof.Machine.execLdVDT x s
  | .ldVK x => Sys2Proof.Machine.execLdVK x s
  | .ldDTV x => Sys2Proof.Machine.execLdDTV x s
  | .ldSTV x => Sys2Proof.Machine.execLdSTV x s
  | .addIV x => Sys2Proof.Machine.execAddIV x s
  | .ldFV x => Sys2Proof.Machine.execLdFV x s
  | .ldBV x => Sys2Proof.Machine.execLdBV x s
  | .ldMV x => Sys2Proof.Machine.execLdMV x s
  | .ldVM x => Sys2Proof.Machine.execLdVM x s

end Sys2Proof.Machine
end

