-- ==== Sys2Proof/Machine/Cycle.lean ====
section
/-! DEFINITION. `cycle()` (spec/40_core_cycle.md R108): fetch, execute or wait. -/

namespace Sys2Proof.Machine

/-- The cost of a fetch depends on the major opcode only (spec/30_encoding.md R92). -/
def fetchEntry (w : Word) : CycEntry := if fieldOp w = 0 then .fetch0 else .fetch

/-- `FETCH_DECODE` (R101). A word that does not decode leaves the pc at it, with `vx` and `vy` already
written (spec/60_exceptions.md R232, conflict C8). -/
def fetchDecode (s : State) : Result :=
  match memReadWord s.pc.toNat s with
  | .error e => raise e s
  | .ok w =>
    let s := { s with vx := fieldX w, vy := fieldY w }
    match decodeOp s.cfg.fx0aMode w with
    | none => raise (.unknownOpcode w s.pc) s
    | some o =>
      .next ({ s with
        dec := { word := w, op := some o, phase := .one }
        pc := s.pc + 2
        core := .execute }.report (cyc s.cfg (fetchEntry w)))

/-- `EXECUTE` (R103): the latched instruction's handler. -/
def executeLatched (s : State) : Result :=
  match s.latched with
  | some i => exec i s
  | none => .refused .emptyLatch

/-- `WAIT` (R104): one cycle passes and nothing changes. -/
def waitCycle (s : State) : Result := .next (s.report (cyc s.cfg .wait))

/-- `cycle()` (R108). -/
def cycle (s : State) : Result :=
  match s.core with
  | .fetchDecode => fetchDecode s
  | .execute => executeLatched s
  | .waitInterrupt => waitCycle s

end Sys2Proof.Machine
end

