-- ==== Sys2Proof/Machine/Interrupt.lean ====
section
/-! DEFINITION. The interrupt service (spec/60_exceptions.md R236 to R241). -/

namespace Sys2Proof.Machine

/-- The general timer's decrement and its cost bonus (R239). -/
def tickGeneral (s : State) : State :=
  if s.generalTimer ≠ 0 then
    { s with generalTimer := s.generalTimer - 1, cost := s.cost + cyc s.cfg .intGt }
  else s

/-- The tone timer's decrement, its cost bonus and the sound edge (R239). -/
def tickTone (s : State) : State :=
  if s.toneTimer ≠ 0 then
    soundEdge s.toneTimer (s.toneTimer - 1)
      { s with toneTimer := s.toneTimer - 1, cost := s.cost + cyc s.cfg .intTt }
  else s

/-- A pending sprite draw goes on (R240). -/
def resumeDraw (s : State) : State :=
  if s.core = .waitInterrupt then { s with core := .execute } else s

/-- `interrupt()` (R236): draw, seed, timers, resume, in this order (decision D36). The framebuffer has
been passed to `draw`, and so is output, also where the draw fails (R255; notes/assumptions/13.md). -/
def interrupt (s : State) : Result :=
  match memRead s.displayPointer.toNat displaySize s with
  | .error e => raise e s
  | .ok framebuffer =>
    let drawn := s.drawn framebuffer
    match s.inputs.nextDraw with
    | .failure => raise .displayFailure drawn
    | .ok =>
      let t := { drawn with seed := s.seed + 1 }.report (cyc s.cfg .intBase)
      .next (resumeDraw (tickTone (tickGeneral t)))

end Sys2Proof.Machine
end

