-- ==== Sys2Proof/Machine/Scheduler.lean ====
section
/-! DEFINITION. The frame scheduler (spec/60_exceptions.md R250, R253, R254): which call comes next, and
what it adds to the scheduler's data. -/

namespace Sys2Proof.Machine

/-- The scheduler's next act. -/
inductive Call where
  | interrupt
  | cycle
  /-- all frames have finished (R254) -/
  | completed
deriving DecidableEq, Repr

/-- Another frame is to be opened. -/
def framesLeft (s : State) : Bool :=
  match s.cfg.numFrames with
  | none => true
  | some n => s.sched.frames < n

/-- The call the scheduler makes in this state: in exact mode `cycle()` while the frame's budget lasts,
then the next frame's `interrupt()` (R250); in free mode whichever the input says (R253). -/
def nextCall (s : State) : Call :=
  match s.cfg.timing with
  | .exact =>
    if s.sched.t < frameNs then .cycle
    else if framesLeft s then .interrupt
    else .completed
  | .free => if s.inputs.nextInterrupt then .interrupt else .cycle

/-- The scheduler's data after an `interrupt()` at `s` that led to `t` (R250): in exact mode the excess
of the last frame is carried into the new one. -/
def afterInterrupt (s t : State) : State :=
  match s.cfg.timing with
  | .exact =>
    { t with sched := { t := s.sched.t - frameNs + t.cost * cycleNs, frames := s.sched.frames + 1 } }
  | .free => { t with inputs := t.inputs.dropInterrupt }

/-- The scheduler's data after a `cycle()` at `s` that led to `t` (R250). -/
def afterCycle (s t : State) : State :=
  match s.cfg.timing with
  | .exact => { t with sched := { s.sched with t := s.sched.t + t.cost * cycleNs } }
  | .free => { t with inputs := t.inputs.dropInterrupt }

/-- What a call answered, with the scheduler's data brought up to date. A stop is passed on as it is. -/
def account (after : State → State) : Result → Result
  | .next t => .next (after t)
  | .fault f => .fault f
  | .refused r => .refused r

/-- One call of the scheduler. -/
def schedule (s : State) : Result :=
  match nextCall s with
  | .interrupt => account (afterInterrupt s) (interrupt s)
  | .cycle => account (afterCycle s) (cycle s)
  | .completed => .fault (.completed s)

end Sys2Proof.Machine
end

