-- ==== Sys2Proof/Machine/Boot.lean ====
section
/-! DEFINITION. Construction with a ROM (spec/70_reset_and_hazards.md R270 to R272), and placing one
instruction so that the next step runs it. -/

namespace Sys2Proof.Machine

/-- The constructed state before the ROM load (R270, R271). -/
def constructed (c : Config) (low : Vector Byte 512) (seed0 : Word) (inputs : Inputs) : State where
  mem            := Memory.writeBytes [] 0 low.toList
  pc             := BitVec.ofNat 16 programAddr
  i              := 0
  sp             := BitVec.ofNat 16 (stackAddr c)
  generalTimer   := 0
  toneTimer      := 0
  seed           := seed0
  displayPointer := BitVec.ofNat 16 (displayAddr c)
  core           := .fetchDecode
  dec            := { word := 0, op := none, phase := .one }
  vx             := 0
  vy             := 0
  halted         := .running
  cfg            := c
  sched          := { t := frameNs, frames := 0 }
  cost           := 0
  inputs         := inputs
  events         := []

/-- Construction (R270): a ROM that does not fit raises `MemoryBounds` and no step is ever made (R272). -/
def construct (c : Config) (low : Vector Byte 512) (seed0 : Word) (inputs : Inputs) (rom : List Byte) :
    Result :=
  let s := constructed c low seed0 inputs
  match memWrite programAddr rom s with
  | .ok t => .next t
  | .error e => raise e s

/-- The scheduler is about to call `cycle()`: inside a frame's budget in exact mode, by its input in free
mode. -/
def cycleDue (s : State) : State :=
  match s.cfg.timing with
  | .exact => if s.sched.t < frameNs then s else { s with sched := { s.sched with t := 0 } }
  | .free => { s with inputs := { s.inputs with interrupts := false :: s.inputs.interrupts } }

/-- The word stored at the pc and fetched (R101), with the scheduler about to call `cycle()`: the next
step executes it. A word that does not decode is stored and left to be fetched. -/
def placeInstruction (s : State) (w : Word) : State :=
  let mem := if s.pc.toNat + 2 ≤ memSize s.cfg then s.mem.writeBytes s.pc.toNat [hiByte w, loByte w] else s.mem
  let stored := cycleDue { s with mem := mem, core := .fetchDecode, halted := .running }
  match fetchDecode stored with
  | .next t => t
  | _ => stored

end Sys2Proof.Machine
end

