-- ==== Sys2Proof/Machine/Step.lean ====
section
/-! DEFINITION. One step: one call of the scheduler (notes/assumptions/10.md). -/

namespace Sys2Proof.Machine

/-- One call of the scheduler, while the block runs; a halted block has no step (spec/10_state.md R34). -/
def step (s : State) : Host.Outcome State Fault Refusal :=
  match s.halted with
  | .running => schedule s
  | .fatal e => .fault (.fatal e s)

/-- The host's placement of one instruction (notes/assumptions/10.md). -/
def State.withFetchWord (s : State) (nbits w : Nat) : State :=
  placeInstruction s (BitVec.ofNat 16 (w % 2 ^ nbits))

end Sys2Proof.Machine
end

