-- ==== Sys2Proof/Safety.lean ====
section
/-! DEFINITION. The terms the claims use: the invariant of a running block, the frame of an executed
instruction, and a precise fatal error. -/

namespace Sys2Proof.Machine

/-- The latch holds the decoded word, and `vx`, `vy` its nibbles (spec/10_state.md R31, R32): what a
fetch leaves. Phase two belongs to `DRW` alone (R33). -/
def LatchConsistent (s : State) : Prop :=
  ∃ o, s.dec.op = some o ∧ decodeOp s.cfg.fx0aMode s.dec.word = some o ∧
    s.vx = fieldX s.dec.word ∧ s.vy = fieldY s.dec.word ∧ (s.dec.phase = .two → o = .drw)

/-- The invariant of a running block. -/
structure Inv (s : State) : Prop where
  /-- memory is in canonical form -/
  wf      : s.mem.wf
  /-- no byte exists at or past `MEM_SIZE` (spec/20_memory.md R50) -/
  below   : s.mem.below (memSize s.cfg)
  /-- `display_pointer` holds `DISPLAY_ADDR` (spec/10_state.md R29) -/
  display : s.displayPointer = BitVec.ofNat 16 (displayAddr s.cfg)
  /-- the block has not raised a fatal error -/
  running : s.halted = .running
  /-- a fetched instruction is pending outside `FetchDecode` -/
  latch   : s.core ≠ .fetchDecode → LatchConsistent s
  /-- a wait is a sprite draw between its phases (R33) -/
  wait    : s.core = .waitInterrupt → s.dec.op = some .drw ∧ s.dec.phase = .two

/-- States reached from `s` by steps. -/
inductive Reaches (s : State) : State → Prop where
  | refl : Reaches s s
  | step {t u : State} : Reaches s t → step t = .next u → Reaches s u

/-- A safe run: no state reached from `s` stops with a fatal error or a refusal. -/
def SafeFrom (s : State) : Prop :=
  ∀ t, Reaches s t → ∀ r, step t = r → (∃ u, r = .next u) ∨ ∃ u, r = .fault (.completed u)

/-! ### Frames -/

/-- Everything but memory, pc, `I`, the core state and the reported cost is as before. -/
def Frame (s t : State) : Prop :=
  t.sp = s.sp ∧ t.generalTimer = s.generalTimer ∧ t.toneTimer = s.toneTimer ∧ t.seed = s.seed ∧
  t.displayPointer = s.displayPointer ∧ t.dec = s.dec ∧ t.vx = s.vx ∧ t.vy = s.vy ∧
  t.halted = s.halted ∧ t.cfg = s.cfg ∧ t.sched = s.sched ∧ t.inputs = s.inputs ∧ t.events = s.events

/-- An execute that ends in `FetchDecode`, reports this cost, and keeps the frame. -/
def Executed (s t : State) (entry : CycEntry) : Prop :=
  t.core = .fetchDecode ∧ t.cost = cyc s.cfg entry ∧ Frame s t

/-- Every byte of memory reads as before. -/
def MemKept (s t : State) : Prop := ∀ a, t.mem.read a = s.mem.read a

/-- Every byte outside `addr .. addr + n - 1` reads as before. -/
def MemKeptOutside (s t : State) (addr n : Nat) : Prop :=
  ∀ a, ¬(addr ≤ a ∧ a < addr + n) → t.mem.read a = s.mem.read a

/-- The registers are `f`, and every byte outside the variable bank reads as before. -/
def BankIs (s t : State) (f : Nibble → Byte) : Prop :=
  (∀ r, t.v r = f r) ∧ MemKeptOutside s t (varAddr s.cfg) 16

/-! ### Fatal errors -/

/-- The state a fatal error leaves: the state before the step but for `halted`, and for `vx`, `vy` after
an illegal word (spec/60_exceptions.md R232). That is said of the block's state; where a collaborator
failed, its call is in the log and its answer taken (R255, notes/assumptions/13.md). -/
def PreciseAt (s : State) (e : FatalError) (final : State) : Prop :=
  match e with
  | .unknownOpcode w _ => final = { s with halted := .fatal e, vx := fieldX w, vy := fieldY w }
  | .displayFailure =>
      final = { s.drawn (s.mem.readBytes s.displayPointer.toNat displaySize) with halted := .fatal e }
  | .inputFailure => final = { s.polled with halted := .fatal e }
  | .memoryBounds _ _ _ => final = { s with halted := .fatal e }

/-! ### The picture -/

/-- The byte at row `r`, column `c` of the framebuffer (spec/47_sprite.md R202). -/
def screenByte (s : State) (r c : Nat) : Byte := s.mem.read (displayAddr s.cfg + 8 * r + c)

/-- What phase two XORs into row `r`, column `c`: work byte `2k` of row `k = r - y` at the start column,
byte `2k + 1` at the next, nothing elsewhere (R206 to R208). -/
def drawnByte (s : State) (x y n : Nibble) (r c : Nat) : Byte :=
  let top := (s.v y).toNat % 32
  let col := (s.v x).toNat % 64 / 8
  if top ≤ r ∧ r < top + n.toNat then
    if c = col then s.mem.read (workAddr s.cfg + 2 * (r - top))
    else if c = col + 1 then s.mem.read (workAddr s.cfg + 2 * (r - top) + 1)
    else 0
  else 0

/-! ### What costs may touch -/

/-- The state without its cost table, its last cost and the scheduler's time. -/
def State.forgetCosts (s : State) : State :=
  { s with cfg := { s.cfg with costs := [] }, cost := 0, sched := { t := 0, frames := 0 } }

/-- An answer without costs. -/
def forgetCosts : Result → Result
  | .next t => .next t.forgetCosts
  | .fault (.fatal e t) => .fault (.fatal e t.forgetCosts)
  | .fault (.completed t) => .fault (.completed t.forgetCosts)
  | .refused r => .refused r

end Sys2Proof.Machine
end

