-- ==== Sys2Proof/Certificates/Slice0/Obligations.lean ====
section
/-! DEFINITION. The statements for the provers. Each docstring names the rules of spec/ it states or
rests on. Execute statements are about `exec`, the handler with the `state <- FetchDecode` before it
(R103); the pc there is already past the word (R23). -/

open Sys2Proof Sys2Proof.Machine

/-! ### Encoding -/

/-- R84, R85: decoding an encoded instruction gives it back, with every operand at every value, and
consumes exactly two bytes. -/
def Obligations.DecodeInvertsEncode : Prop :=
  ∀ (mode : Fx0aMode) (i : Instr) (rest : List Byte), i.wellFormed mode = true →
    decode mode (encode i) = .ok i ∧ decodeBytes mode (encodeBytes i ++ rest) = .ok (i, rest)

/-- R84, R86: a word that decodes is the encoding of its instruction: every word has one meaning. -/
def Obligations.EncodeInvertsDecode : Prop :=
  ∀ (mode : Fx0aMode) (w : Word) (i : Instr), decode mode w = .ok i →
    encode i = w ∧ i.wellFormed mode = true

/-- R102: decoding finds the unique row that matches, reads nothing but the word, and no handler raises
`UnknownOpcode`. -/
def Obligations.DecodeFindsTheUniqueRow : Prop :=
  (∀ (mode : Fx0aMode) (w : Word) (o : Op),
    decodeOp mode w = some o ↔ o.available mode = true ∧ w &&& o.mask = o.pattern) ∧
  (∀ (o p : Op) (w : Word), w &&& o.mask = o.pattern → w &&& p.mask = p.pattern → o = p) ∧
  (∀ (mode : Fx0aMode) (w : Word),
    decodeOp mode w = none ↔ ∀ o : Op, o.available mode = true → w &&& o.mask ≠ o.pattern) ∧
  (∀ (i : Instr) (s t : State) (w pc : Word), exec i s ≠ .fault (.fatal (.unknownOpcode w pc) t))

/-- R86: the illegal words are exactly the listed ones, and fetching one raises `UnknownOpcode` with the
word and its address. -/
def Obligations.IllegalWordsAreTheListedOnes : Prop :=
  ∀ (mode : Fx0aMode) (w : Word),
    (decodeOp mode w = none ↔
      (fieldOp w = 0x0 ∧ fieldNNN w ≠ 0x0E0 ∧ fieldNNN w ≠ 0x0EE) ∨
      ((fieldOp w = 0x5 ∨ fieldOp w = 0x9) ∧ fieldN w ≠ 0) ∨
      (fieldOp w = 0x8 ∧ fieldN w ∈ [0x8, 0x9, 0xA, 0xB, 0xC, 0xD, 0xF]) ∨
      (fieldOp w = 0xE ∧ fieldKK w ≠ 0x9E ∧ fieldKK w ≠ 0xA1) ∨
      (fieldOp w = 0xF ∧ fieldKK w ∉ [0x07, 0x0A, 0x15, 0x18, 0x1E, 0x29, 0x33, 0x55, 0x65]) ∨
      (mode = .fatal ∧ fieldOp w = 0xF ∧ fieldKK w = 0x0A)) ∧
    (decodeOp mode w = none → ∀ s : State, s.core = .fetchDecode → s.cfg.fx0aMode = mode →
      s.pc.toNat + 2 ≤ memSize s.cfg → s.mem.readWord s.pc.toNat = w →
      ∃ t, cycle s = .fault (.fatal (.unknownOpcode w s.pc) t) ∧ t.pc = s.pc)

/-- R84: words written out from the table decode to the instructions they stand for. -/
def Obligations.SampleWordsDecode : Prop :=
  decode .retry 0x00E0 = .ok .cls ∧ decode .retry 0x00EE = .ok .ret ∧
  decode .retry 0x1234 = .ok (.jp 0x234) ∧ decode .retry 0x2345 = .ok (.call 0x345) ∧
  decode .retry 0x3A7F = .ok (.seVB 0xA 0x7F) ∧ decode .retry 0x8AB4 = .ok (.addVV 0xA 0xB) ∧
  decode .retry 0x8AB5 = .ok (.subVV 0xA 0xB) ∧ decode .retry 0xDABC = .ok (.drw 0xA 0xB 0xC) ∧
  decode .retry 0xC5F0 = .ok (.rnd 0x5 0xF0) ∧ decode .retry 0xE79E = .ok (.skp 0x7) ∧
  decode .retry 0xF70A = .ok (.ldVK 0x7) ∧ decode .retry 0xF718 = .ok (.ldSTV 0x7) ∧
  decode .retry 0xF765 = .ok (.ldVM 0x7) ∧
  decode .fatal 0xF70A = .error (.unknownOpcode 0xF70A) ∧
  decode .retry 0x0123 = .error (.unknownOpcode 0x0123)

/-! ### Fetch and execute -/

/-- R101, R83, R92: a fetch of a word that decodes latches it, writes `vx` and `vy`, advances the pc by 2,
and reports 40 or 68, 40 for `00E0` and `00EE` alone; nothing else changes. -/
def Obligations.FetchLatchesTheWord : Prop :=
  ∀ (s : State) (w : Word) (o : Op), s.core = .fetchDecode → s.pc.toNat + 2 ≤ memSize s.cfg →
    w = s.mem.read s.pc.toNat ++ s.mem.read (s.pc.toNat + 1) → decodeOp s.cfg.fx0aMode w = some o →
    ∃ t, cycle s = .next t ∧ t.dec = { word := w, op := some o, phase := .one } ∧
      t.vx = fieldX w ∧ t.vy = fieldY w ∧ t.pc = s.pc + 2 ∧ t.core = .execute ∧
      t.cost = (if fieldOp w = 0 then 40 else 68) ∧ (fieldOp w = 0 → o = .cls ∨ o = .ret) ∧
      MemKept s t ∧ t.i = s.i ∧
      Frame { s with dec := t.dec, vx := t.vx, vy := t.vy } t

/-- R101, R232, R234: a fetch past memory raises `MemoryBounds` and one of an illegal word raises
`UnknownOpcode`; the state is as before but for `halted`, and for `vx`, `vy` after the illegal word. -/
def Obligations.FetchFaultsArePrecise : Prop :=
  ∀ s : State, s.core = .fetchDecode →
    (memSize s.cfg < s.pc.toNat + 2 →
      cycle s = .fault (.fatal (.memoryBounds s.pc.toNat 2 .read)
        { s with halted := .fatal (.memoryBounds s.pc.toNat 2 .read) })) ∧
    (∀ w : Word, s.pc.toNat + 2 ≤ memSize s.cfg → w = s.mem.read s.pc.toNat ++ s.mem.read (s.pc.toNat + 1) →
      decodeOp s.cfg.fx0aMode w = none →
      cycle s = .fault (.fatal (.unknownOpcode w s.pc)
        { s with halted := .fatal (.unknownOpcode w s.pc), vx := fieldX w, vy := fieldY w }))

/-- R106, R103: when the bytes at the pc decode to an instruction, one step fetches it and the step that
executes it is `exec` of it. Between the two the scheduler may call `interrupt()`. -/
def Obligations.StepRunsTheDecodedInstruction : Prop :=
  (∀ (s : State) (i : Instr), s.halted = .running → s.core = .fetchDecode → nextCall s = .cycle →
    s.pc.toNat + 2 ≤ memSize s.cfg →
    decodeBytes s.cfg.fx0aMode (s.mem.readBytes s.pc.toNat 2) = .ok (i, []) →
    ∃ t, step s = .next t ∧ t.latched = some i ∧ t.core = .execute ∧ t.halted = .running ∧
      t.pc = s.pc + 2 ∧ MemKept s t) ∧
  (∀ (t : State) (i : Instr), t.halted = .running → t.core = .execute → t.latched = some i →
    nextCall t = .cycle → step t = account (afterCycle t) (exec i t))

/-- The model's placement of one instruction (notes/assumptions/10.md): the step after it is `exec` of the
instruction, at the state a fetch of the word leaves (R101). -/
def Obligations.PlacedWordRunsNext : Prop :=
  ∀ (s : State) (w : Nat) (i : Instr), s.pc.toNat + 2 ≤ memSize s.cfg → w < 2 ^ 16 →
    decode s.cfg.fx0aMode (BitVec.ofNat 16 w) = .ok i →
    (s.withFetchWord 16 w).latched = some i ∧ (s.withFetchWord 16 w).pc = s.pc + 2 ∧
    (s.withFetchWord 16 w).mem.readWord s.pc.toNat = BitVec.ofNat 16 w ∧
    step (s.withFetchWord 16 w) =
      account (afterCycle (s.withFetchWord 16 w)) (exec i (s.withFetchWord 16 w))

/-- R104: while waiting, `cycle()` reports 1 and changes nothing, and only `interrupt()` leaves the wait. -/
def Obligations.OnlyInterruptEndsTheWait : Prop :=
  (∀ s : State, s.core = .waitInterrupt → cycle s = .next { s with cost := 1 }) ∧
  (∀ s t : State, s.core = .waitInterrupt → step s = .next t →
    (nextCall s = .cycle ∧ t.core = .waitInterrupt) ∨ (nextCall s = .interrupt ∧ t.core = .execute))

/-- R105: exactly one handler sets `WaitInterrupt`, `DRW` in phase one; every other execute ends in
`FetchDecode`. -/
def Obligations.OnlyDrawPhaseOneWaits : Prop :=
  ∀ (i : Instr) (s t : State), exec i s = .next t →
    (i.op = .drw ∧ s.dec.phase = .one → t.core = .waitInterrupt ∧ t.dec.phase = .two) ∧
    (¬(i.op = .drw ∧ s.dec.phase = .one) → t.core = .fetchDecode ∧ t.dec = s.dec)

/-! ### Control instructions -/

/-- R120: `CLS` zeroes the 256 display bytes and nothing else. -/
def Obligations.ClearScreenZeroesTheDisplay : Prop :=
  ∀ s : State, s.displayPointer = BitVec.ofNat 16 (displayAddr s.cfg) →
    ∃ t, exec .cls s = .next t ∧
      (∀ k < 256, t.mem.read (displayAddr s.cfg + k) = 0x00) ∧
      MemKeptOutside s t (displayAddr s.cfg) 256 ∧ t.pc = s.pc ∧ t.i = s.i ∧ Executed s t .cls

/-- R121: `RET` pops the big-endian address above `SP`, or faults with `SP` and the pc unchanged. -/
def Obligations.ReturnPopsTheAddress : Prop :=
  ∀ (s : State) (a : Nat), a = (s.sp.toNat + 2) % 65536 →
    (a + 2 ≤ memSize s.cfg →
      ∃ t, exec .ret s = .next t ∧
        t.pc.toNat = 256 * (s.mem.read a).toNat + (s.mem.read (a + 1)).toNat ∧ t.sp.toNat = a ∧
        MemKept s t ∧ t.i = s.i ∧ Executed { s with sp := t.sp } t .ret) ∧
    (memSize s.cfg < a + 2 →
      exec .ret s = .fault (.fatal (.memoryBounds a 2 .read)
        { s with halted := .fatal (.memoryBounds a 2 .read) }))

/-- R122: `JP` sets the pc to `NNN` and reports 12. -/
def Obligations.JumpSetsThePc : Prop :=
  ∀ (s : State) (nnn : Addr12), ∃ t, exec (.jp nnn) s = .next t ∧
    t.pc.toNat = nnn.toNat ∧ t.cost = 12 ∧ MemKept s t ∧ t.i = s.i ∧ Executed s t .jp

/-- R123: `CALL` stores the return address big-endian at `SP`, lowers `SP` by 2, jumps and reports 26, or
faults with nothing written. -/
def Obligations.CallPushesTheReturnAddress : Prop :=
  ∀ (s : State) (nnn : Addr12),
    (s.sp.toNat + 2 ≤ memSize s.cfg →
      ∃ t, exec (.call nnn) s = .next t ∧
        (t.mem.read s.sp.toNat).toNat = s.pc.toNat / 256 ∧
        (t.mem.read (s.sp.toNat + 1)).toNat = s.pc.toNat % 256 ∧
        MemKeptOutside s t s.sp.toNat 2 ∧ t.sp = s.sp - 2 ∧ t.pc.toNat = nnn.toNat ∧ t.cost = 26 ∧
        t.i = s.i ∧ Executed { s with sp := t.sp } t .call) ∧
    (memSize s.cfg < s.sp.toNat + 2 →
      exec (.call nnn) s = .fault (.fatal (.memoryBounds s.sp.toNat 2 .write)
        { s with halted := .fatal (.memoryBounds s.sp.toNat 2 .write) }))

/-! ### Skips -/

/-- R130, R131, R107: `SE Vx, byte` and `SNE Vx, byte`; a skip costs more. -/
def Obligations.ImmediateComparesSkip : Prop :=
  ∀ (s : State) (x : Nibble) (kk : Byte),
    (∃ t, exec (.seVB x kk) s = .next t ∧ t.pc = (if s.v x = kk then s.pc + 2 else s.pc) ∧
      MemKept s t ∧ t.i = s.i ∧ Executed s t (.seVB (decide (s.v x = kk)))) ∧
    (∃ t, exec (.sneVB x kk) s = .next t ∧ t.pc = (if s.v x ≠ kk then s.pc + 2 else s.pc) ∧
      MemKept s t ∧ t.i = s.i ∧ Executed s t (.sneVB (decide (s.v x ≠ kk)))) ∧
    cyc s.cfg (.seVB true) > cyc s.cfg (.seVB false) ∧ cyc s.cfg (.sneVB true) > cyc s.cfg (.sneVB false)

/-- R132, R133, R107: `SE Vx, Vy` and `SNE Vx, Vy`; a skip costs more. -/
def Obligations.RegisterComparesSkip : Prop :=
  ∀ (s : State) (x y : Nibble),
    (∃ t, exec (.seVV x y) s = .next t ∧ t.pc = (if s.v x = s.v y then s.pc + 2 else s.pc) ∧
      MemKept s t ∧ t.i = s.i ∧ Executed s t (.seVV (decide (s.v x = s.v y)))) ∧
    (∃ t, exec (.sneVV x y) s = .next t ∧ t.pc = (if s.v x ≠ s.v y then s.pc + 2 else s.pc) ∧
      MemKept s t ∧ t.i = s.i ∧ Executed s t (.sneVV (decide (s.v x ≠ s.v y)))) ∧
    cyc s.cfg (.seVV true) > cyc s.cfg (.seVV false) ∧ cyc s.cfg (.sneVV true) > cyc s.cfg (.sneVV false)

/-! ### Arithmetic and logic -/

/-- R142, R143: `LD Vx, byte` and `ADD Vx, byte`; the addition wraps and writes no flag. -/
def Obligations.ImmediateLoadAndAdd : Prop :=
  ∀ (s : State) (x : Nibble) (kk : Byte),
    (∃ t, exec (.ldVB x kk) s = .next t ∧ BankIs s t (fun r => if r = x then kk else s.v r) ∧
      t.pc = s.pc ∧ t.i = s.i ∧ Executed s t .ldVB) ∧
    (∃ t, exec (.addVB x kk) s = .next t ∧
      BankIs s t (fun r => if r = x then BitVec.ofNat 8 (((s.v x).toNat + kk.toNat) % 256) else s.v r) ∧
      t.pc = s.pc ∧ t.i = s.i ∧ Executed s t .addVB)

/-- R144: `LD Vx, Vy`. -/
def Obligations.RegisterCopy : Prop :=
  ∀ (s : State) (x y : Nibble), ∃ t, exec (.ldVV x y) s = .next t ∧
    BankIs s t (fun r => if r = x then s.v y else s.v r) ∧ t.pc = s.pc ∧ t.i = s.i ∧ Executed s t .aluLd

/-- R145 to R147, R141: `OR`, `AND`, `XOR`; with `LOGIC_VF = reset`, `VF` ends as 0. -/
def Obligations.LogicInstructions : Prop :=
  ∀ (s : State) (x y : Nibble),
    (∃ t, exec (.orVV x y) s = .next t ∧
      BankIs s t (fun r => if r = 0xF ∧ s.cfg.logicVf = .reset then 0
        else if r = x then s.v x ||| s.v y else s.v r) ∧
      t.pc = s.pc ∧ t.i = s.i ∧ Executed s t .aluOr) ∧
    (∃ t, exec (.andVV x y) s = .next t ∧
      BankIs s t (fun r => if r = 0xF ∧ s.cfg.logicVf = .reset then 0
        else if r = x then s.v x &&& s.v y else s.v r) ∧
      t.pc = s.pc ∧ t.i = s.i ∧ Executed s t .aluAnd) ∧
    (∃ t, exec (.xorVV x y) s = .next t ∧
      BankIs s t (fun r => if r = 0xF ∧ s.cfg.logicVf = .reset then 0
        else if r = x then s.v x ^^^ s.v y else s.v r) ∧
      t.pc = s.pc ∧ t.i = s.i ∧ Executed s t .aluXor)

/-- R148, R140, R141: `ADD Vx, Vy`; `VF` is the carry, also when `X = F`. -/
def Obligations.AddSetsTheCarry : Prop :=
  ∀ (s : State) (x y : Nibble), ∃ t, exec (.addVV x y) s = .next t ∧
    BankIs s t (fun r => if r = 0xF then (if (s.v x).toNat + (s.v y).toNat > 0xFF then 1 else 0)
      else if r = x then BitVec.ofNat 8 (((s.v x).toNat + (s.v y).toNat) % 256) else s.v r) ∧
    t.pc = s.pc ∧ t.i = s.i ∧ Executed s t .aluAdd

/-- R149, R151, R140, R141: `SUB` and `SUBN`; `VF = 1` means no borrow. -/
def Obligations.SubtractSetsNoBorrow : Prop :=
  ∀ (s : State) (x y : Nibble) (a b : Nat), a = (s.v x).toNat → b = (s.v y).toNat →
    (∃ t, exec (.subVV x y) s = .next t ∧
      BankIs s t (fun r => if r = 0xF then (if a ≥ b then 1 else 0)
        else if r = x then BitVec.ofNat 8 ((256 + a - b) % 256) else s.v r) ∧
      t.pc = s.pc ∧ t.i = s.i ∧ Executed s t .aluSub) ∧
    (∃ t, exec (.subnVV x y) s = .next t ∧
      BankIs s t (fun r => if r = 0xF then (if b ≥ a then 1 else 0)
        else if r = x then BitVec.ofNat 8 ((256 + b - a) % 256) else s.v r) ∧
      t.pc = s.pc ∧ t.i = s.i ∧ Executed s t .aluSubn)

/-- R150, R152, R140, R141: `SHR` and `SHL` shift `VY` into `VX`; `VF` gets the bit shifted out. -/
def Obligations.ShiftsTakeVyAndDropABit : Prop :=
  ∀ (s : State) (x y : Nibble) (b : Nat), b = (s.v y).toNat →
    (∃ t, exec (.shrVV x y) s = .next t ∧
      BankIs s t (fun r => if r = 0xF then BitVec.ofNat 8 (b % 2)
        else if r = x then BitVec.ofNat 8 (b / 2) else s.v r) ∧
      t.pc = s.pc ∧ t.i = s.i ∧ Executed s t .aluShr) ∧
    (∃ t, exec (.shlVV x y) s = .next t ∧
      BankIs s t (fun r => if r = 0xF then BitVec.ofNat 8 (b / 128)
        else if r = x then BitVec.ofNat 8 (2 * b % 256) else s.v r) ∧
      t.pc = s.pc ∧ t.i = s.i ∧ Executed s t .aluShl)

/-! ### Memory and index -/

/-- R160, R163: `LD I, addr` and `LD F, Vx`. -/
def Obligations.IndexLoads : Prop :=
  ∀ s : State,
    (∀ nnn : Addr12, ∃ t, exec (.ldIA nnn) s = .next t ∧ t.i.toNat = nnn.toNat ∧ t.pc = s.pc ∧
      MemKept s t ∧ Executed s t .ldIA) ∧
    (∀ x : Nibble, ∃ t, exec (.ldFV x) s = .next t ∧
      some t.i = s.cfg.fontAddr[(s.v x).toNat % 16]? ∧ t.pc = s.pc ∧ MemKept s t ∧ Executed s t .ldFV)

/-- R161: `ADD I, Vx` wraps at 16 bits, reports the page crossing's cost, and writes no `VF`. -/
def Obligations.AddIndexReportsPageCrossing : Prop :=
  ∀ (s : State) (x : Nibble), ∃ t, exec (.addIV x) s = .next t ∧
    t.i.toNat = (s.i.toNat + (s.v x).toNat) % 65536 ∧ t.pc = s.pc ∧ MemKept s t ∧
    Executed s t (.addIV (decide (s.i.toNat % 256 + (s.v x).toNat > 0xFF))) ∧
    cyc s.cfg (.addIV false) ≠ cyc s.cfg (.addIV true)

/-- R162: `JP V0, addr` adds `V0`, whatever `NNN` is, without a wrap to 12 bits. -/
def Obligations.JumpAddsV0 : Prop :=
  ∀ (s : State) (nnn : Addr12), ∃ t, exec (.jpV0 nnn) s = .next t ∧
    t.pc.toNat = nnn.toNat + (s.v 0).toNat ∧ t.i = s.i ∧ MemKept s t ∧
    Executed s t (.jpV0 (decide (nnn.toNat % 256 + (s.v 0).toNat > 0xFF)))

/-- R164: `LD B, Vx` stores the three digits of the old register, `I` unchanged, or faults with nothing
written. -/
def Obligations.DecimalDigitsAreStored : Prop :=
  ∀ (s : State) (x : Nibble),
    (s.i.toNat + 3 ≤ memSize s.cfg →
      ∃ t, exec (.ldBV x) s = .next t ∧
        (t.mem.read s.i.toNat).toNat = (s.v x).toNat / 100 ∧
        (t.mem.read (s.i.toNat + 1)).toNat = (s.v x).toNat / 10 % 10 ∧
        (t.mem.read (s.i.toNat + 2)).toNat = (s.v x).toNat % 10 ∧
        MemKeptOutside s t s.i.toNat 3 ∧ t.i = s.i ∧ t.pc = s.pc ∧ Executed s t (.ldBV (s.v x))) ∧
    (memSize s.cfg < s.i.toNat + 3 →
      exec (.ldBV x) s = .fault (.fatal (.memoryBounds s.i.toNat 3 .write)
        { s with halted := .fatal (.memoryBounds s.i.toNat 3 .write) }))

/-- R165: `LD [I], Vx` stores the old `V0..VX` and leaves `I` one past the last, or faults. -/
def Obligations.BulkSaveStoresTheRegisters : Prop :=
  ∀ (s : State) (x : Nibble) (n : Nat), n = x.toNat + 1 →
    (s.i.toNat + n ≤ memSize s.cfg →
      ∃ t, exec (.ldMV x) s = .next t ∧
        (∀ r : Nibble, r.toNat < n → t.mem.read (s.i.toNat + r.toNat) = s.v r) ∧
        MemKeptOutside s t s.i.toNat n ∧ t.i.toNat = (s.i.toNat + n) % 65536 ∧ t.pc = s.pc ∧
        Executed s t (.ldMV x)) ∧
    (memSize s.cfg < s.i.toNat + n →
      exec (.ldMV x) s = .fault (.fatal (.memoryBounds s.i.toNat n .write)
        { s with halted := .fatal (.memoryBounds s.i.toNat n .write) }))

/-- R166: `LD Vx, [I]` loads `V0..VX` from memory as it was and leaves `I` one past the last, or faults. -/
def Obligations.BulkLoadReadsMemory : Prop :=
  ∀ (s : State) (x : Nibble) (n : Nat), n = x.toNat + 1 →
    (s.i.toNat + n ≤ memSize s.cfg →
      ∃ t, exec (.ldVM x) s = .next t ∧
        BankIs s t (fun r => if r.toNat < n then s.mem.read (s.i.toNat + r.toNat) else s.v r) ∧
        t.i.toNat = (s.i.toNat + n) % 65536 ∧ t.pc = s.pc ∧ Executed s t (.ldVM x)) ∧
    (memSize s.cfg < s.i.toNat + n →
      exec (.ldVM x) s = .fault (.fatal (.memoryBounds s.i.toNat n .read)
        { s with halted := .fatal (.memoryBounds s.i.toNat n .read) }))

/-! ### Random -/

/-- R180, R181: `RND` draws from the incremented seed and the one table byte it selects, stores the new
seed, and masks the value into `VX`. -/
def Obligations.RandomDrawsFromOneTableByte : Prop :=
  (∀ (s : State) (x : Nibble) (kk : Byte) (r : Word × Byte),
    r = rndFn s.cfg s.seed (fun j => s.mem.read (0x0100 + j.toNat)) →
    ∃ t, exec (.rnd x kk) s = .next t ∧ t.seed = r.1 ∧
      BankIs s t (fun v => if v = x then r.2 &&& kk else s.v v) ∧
      t.pc = s.pc ∧ t.i = s.i ∧ Executed { s with seed := t.seed } t .rnd) ∧
  (∀ (c : Config) (seed : Word) (f g : Byte → Byte), f (loByte (seed + 1)) = g (loByte (seed + 1)) →
    rndFn c seed f = rndFn c seed g)

/-- R182: the reference generator's arithmetic, as the spec writes it on numbers. -/
def Obligations.ReferenceGeneratorArithmetic : Prop :=
  ∀ (c : Config) (seed : Word) (table : Byte → Byte) (s1 t t1 h t2 : Nat), c.rndFn = .reference →
    s1 = (seed.toNat + 1) % 65536 →
    t = s1 / 256 + (table (BitVec.ofNat 8 (s1 % 256))).toNat → t1 = t % 256 →
    h = 128 * (t / 256) + t1 / 2 → t2 = (h + t1) % 256 →
    (rndFn c seed table).1.toNat = 256 * t2 + s1 % 256 ∧ (rndFn c seed table).2.toNat = t2

/-! ### Keys -/

/-- Rests on R191, R192, R193: `SKP` and `SKNP` poll once; a key equal to the register's low nibble is
pressed, any other answer but a failure is not; a failure is fatal. That the answers stand in lists and the
calls, the failed poll among them, in a log is the model's choice (notes/assumptions/8.md, 13.md). -/
def Obligations.KeySkipsPollOnce : Prop :=
  ∀ (s : State) (x : Nibble) (down : Bool),
    down = decide (∃ k : Nibble, s.inputs.nextKey = .key k ∧ k.toNat = (s.v x).toNat % 16) →
    (s.inputs.nextKey ≠ .failure →
      (∃ t, exec (.skp x) s = .next t ∧ t.pc = (if down = true then s.pc + 2 else s.pc) ∧ MemKept s t ∧ t.i = s.i ∧
        Executed { s with inputs := s.inputs.dropKey, events := .poll s.inputs.nextKey :: s.events } t
          (.skp down)) ∧
      (∃ t, exec (.sknp x) s = .next t ∧ t.pc = (if down = true then s.pc else s.pc + 2) ∧ MemKept s t ∧ t.i = s.i ∧
        Executed { s with inputs := s.inputs.dropKey, events := .poll s.inputs.nextKey :: s.events } t
          (.sknp (!down)))) ∧
    (s.inputs.nextKey = .failure →
      exec (.skp x) s = .fault (.fatal .inputFailure
        { s with halted := .fatal .inputFailure, inputs := s.inputs.dropKey, events := .poll .failure :: s.events }) ∧
      exec (.sknp x) s = .fault (.fatal .inputFailure
        { s with halted := .fatal .inputFailure, inputs := s.inputs.dropKey, events := .poll .failure :: s.events }))

/-- Rests on R194: in `fatal` mode the word does not decode, so execute is never reached. In `retry` mode
`LD Vx, K` writes the key, or sends the pc back to the word on a miss; a failure is fatal. That the answers
stand in lists and the calls, the failed poll among them, in a log is the model's choice
(notes/assumptions/8.md, 13.md). -/
def Obligations.KeyWaitRetries : Prop :=
  (∀ w : Word, fieldOp w = 0xF → fieldKK w = 0x0A → decodeOp .fatal w = none) ∧
  ∀ (s : State) (x : Nibble), s.cfg.fx0aMode = .retry →
    (∀ k : Nibble, s.inputs.nextKey = .key k →
      ∃ t, exec (.ldVK x) s = .next t ∧
        BankIs s t (fun r => if r = x then BitVec.ofNat 8 k.toNat else s.v r) ∧ t.pc = s.pc ∧ t.i = s.i ∧
        Executed { s with inputs := s.inputs.dropKey, events := .poll (.key k) :: s.events } t (.ldVK true)) ∧
    (s.inputs.nextKey = .none →
      ∃ t, exec (.ldVK x) s = .next t ∧ t.pc = s.pc - 2 ∧ MemKept s t ∧ t.i = s.i ∧
        Executed { s with inputs := s.inputs.dropKey, events := .poll .none :: s.events } t (.ldVK false)) ∧
    (s.inputs.nextKey = .failure →
      exec (.ldVK x) s = .fault (.fatal .inputFailure
        { s with halted := .fatal .inputFailure, inputs := s.inputs.dropKey, events := .poll .failure :: s.events }))

/-! ### Sprites -/

/-- R203, R204, R205: phase one stores each row shifted right by `b` and its carry-over in the work area,
waits, and changes nothing else; it faults when the sprite's rows reach past memory. -/
def Obligations.DrawPhaseOneFillsTheWorkArea : Prop :=
  ∀ (s : State) (x y n : Nibble) (b : Nat), s.dec.phase = .one → b = (s.v x).toNat % 8 →
    (n = 0 ∨ s.i.toNat + n.toNat ≤ memSize s.cfg →
      ∃ t, exec (.drw x y n) s = .next t ∧
        (∀ k < n.toNat,
          (t.mem.read (workAddr s.cfg + 2 * k)).toNat = (s.mem.read (s.i.toNat + k)).toNat / 2 ^ b ∧
          (t.mem.read (workAddr s.cfg + 2 * k + 1)).toNat =
            (s.mem.read (s.i.toNat + k)).toNat * 2 ^ (8 - b) % 256) ∧
        MemKeptOutside s t (workAddr s.cfg) (2 * n.toNat) ∧
        t.core = .waitInterrupt ∧ t.dec = { s.dec with phase := .two } ∧ t.pc = s.pc ∧ t.i = s.i ∧
        t.cost = cyc s.cfg (.drw1 n.toNat b) ∧ Frame { s with dec := t.dec } t) ∧
    (n ≠ 0 → memSize s.cfg < s.i.toNat + n.toNat →
      exec (.drw x y n) s = .fault (.fatal (.memoryBounds s.i.toNat n.toNat .read)
        { s with halted := .fatal (.memoryBounds s.i.toNat n.toNat .read) }))

/-- R206 to R210: phase two XORs the work area's bytes into the framebuffer, clipped at the right and the
bottom, sets `VF` when a set pixel is cleared, and raises nothing. -/
def Obligations.DrawPhaseTwoXorsTheFramebuffer : Prop :=
  ∀ (s : State) (x y n : Nibble) (on : Nat), s.dec.phase = .two →
    s.displayPointer = BitVec.ofNat 16 (displayAddr s.cfg) → on = min n.toNat (32 - (s.v y).toNat % 32) →
    ∃ t, exec (.drw x y n) s = .next t ∧
      (∀ r < 32, ∀ c < 8, screenByte t r c = screenByte s r c ^^^ drawnByte s x y n r c) ∧
      ((∃ r < 32, ∃ c < 8, screenByte s r c &&& drawnByte s x y n r c ≠ 0) → t.v 0xF = 1) ∧
      ((∀ r < 32, ∀ c < 8, screenByte s r c &&& drawnByte s x y n r c = 0) → t.v 0xF = 0) ∧
      (∀ v : Nibble, v ≠ 0xF → t.v v = s.v v) ∧
      (∀ a, ¬(displayAddr s.cfg ≤ a ∧ a < displayAddr s.cfg + 256) → a ≠ vAddr s.cfg 0xF →
        t.mem.read a = s.mem.read a) ∧
      t.pc = s.pc ∧ t.i = s.i ∧
      Executed s t (.drw2 n.toNat on (if (s.v x).toNat % 64 / 8 < 7 then on else 0))

/-- Rests on R206 and R209: phase two run twice over the same work area, at the same place, restores the
framebuffer, and the second flag says whether a drawn pixel was clear before the first run. No phase one
and no interrupt runs between. The position registers are not `VF`: the first run writes its flag there,
and a position read from it may differ in the second. -/
def Obligations.DrawingTwiceRestoresTheFramebuffer : Prop :=
  ∀ (s : State) (x y n : Nibble), s.dec.phase = .two → x ≠ 0xF → y ≠ 0xF →
    s.displayPointer = BitVec.ofNat 16 (displayAddr s.cfg) →
    ∃ t u, exec (.drw x y n) s = .next t ∧ exec (.drw x y n) t = .next u ∧
      (∀ r < 32, ∀ c < 8, screenByte u r c = screenByte s r c) ∧
      ((∃ r < 32, ∃ c < 8, ~~~(screenByte s r c) &&& drawnByte s x y n r c ≠ 0) → u.v 0xF = 1) ∧
      ((∀ r < 32, ∀ c < 8, ~~~(screenByte s r c) &&& drawnByte s x y n r c = 0) → u.v 0xF = 0)

/-- R211: `DXY0` draws nothing: phase one reads and writes no memory byte and cannot fault, and waits;
phase two writes `VF <- 0`. -/
def Obligations.DrawOfZeroRowsOnlyClearsVf : Prop :=
  ∀ (s : State) (x y : Nibble),
    (s.dec.phase = .one →
      ∃ t, exec (.drw x y 0) s = .next t ∧ MemKept s t ∧ t.core = .waitInterrupt ∧ t.dec.phase = .two) ∧
    (s.dec.phase = .two →
      ∃ t, exec (.drw x y 0) s = .next t ∧ t.core = .fetchDecode ∧
        BankIs s t (fun r => if r = 0xF then 0 else s.v r))

/-! ### Timers -/

/-- R220, R221: `LD Vx, DT` and `LD DT, Vx`. -/
def Obligations.GeneralTimerIsReadAndSet : Prop :=
  ∀ (s : State) (x : Nibble),
    (∃ t, exec (.ldVDT x) s = .next t ∧ BankIs s t (fun r => if r = x then s.generalTimer else s.v r) ∧
      t.pc = s.pc ∧ t.i = s.i ∧ Executed s t .ldVDT) ∧
    (∃ t, exec (.ldDTV x) s = .next t ∧ t.generalTimer = s.v x ∧ MemKept s t ∧ t.pc = s.pc ∧ t.i = s.i ∧
      Executed { s with generalTimer := t.generalTimer } t .ldDTV)

/-- Rests on R222, R223: `LD ST, Vx` sets the tone timer; `beep()` is called on a change from 0, `stop()` on
a change to 0, and a Sound failure is recorded and changes nothing else. That the answers stand in lists and
the calls in a log, newest first, is the model's choice (notes/assumptions/8.md, 13.md). -/
def Obligations.ToneTimerDrivesSound : Prop :=
  ∀ (s : State) (x : Nibble), ∃ t, exec (.ldSTV x) s = .next t ∧ t.toneTimer = s.v x ∧
    MemKept s t ∧ t.pc = s.pc ∧ t.i = s.i ∧
    Executed { s with toneTimer := t.toneTimer, inputs := t.inputs, events := t.events } t .ldSTV ∧
    (s.toneTimer = 0 → s.v x ≠ 0 →
      t.inputs = s.inputs.dropSound ∧
      t.events = (if s.inputs.nextSound = .failure then [.soundFailure .beep] else []) ++
        .sound .beep s.inputs.nextSound :: s.events) ∧
    (s.toneTimer ≠ 0 → s.v x = 0 →
      t.inputs = s.inputs.dropSound ∧
      t.events = (if s.inputs.nextSound = .failure then [.soundFailure .stop] else []) ++
        .sound .stop s.inputs.nextSound :: s.events) ∧
    ((s.toneTimer = 0 ↔ s.v x = 0) → t.inputs = s.inputs ∧ t.events = s.events)

/-! ### The interrupt -/

/-- R236, R238, R239, R240, R245: what an interrupt does to the seed, the timers and the core state, and
that every other register and all of memory stay. The collaborators' answers and the event log are the
model's own fields, and InterruptDrawsTheFramebuffer says what becomes of them. -/
def Obligations.InterruptServicesTheFrame : Prop :=
  ∀ s : State, s.displayPointer = BitVec.ofNat 16 (displayAddr s.cfg) → s.inputs.nextDraw = .ok →
    ∃ t, interrupt s = .next t ∧ t.seed.toNat = (s.seed.toNat + 1) % 65536 ∧
      t.generalTimer.toNat = s.generalTimer.toNat - 1 ∧ t.toneTimer.toNat = s.toneTimer.toNat - 1 ∧
      t.core = (if s.core = .waitInterrupt then .execute else s.core) ∧
      t.mem = s.mem ∧ t.pc = s.pc ∧ t.i = s.i ∧
      Frame { s with seed := t.seed, generalTimer := t.generalTimer, toneTimer := t.toneTimer,
                     inputs := t.inputs, events := t.events } t

/-- R241: the cost of an interrupt. -/
def Obligations.InterruptCostCountsTheTimers : Prop :=
  ∀ s t : State, interrupt s = .next t →
    t.cost = 1831 + 8 * (if s.generalTimer ≠ 0 then 1 else 0) + 4 * (if s.toneTimer ≠ 0 then 1 else 0) ∧
    t.cost ∈ [1831, 1835, 1839, 1843]

/-- R237, R239, R223: an interrupt hands the Display the 256 framebuffer bytes as they stand, and calls
`stop()` exactly when the tone timer reaches 0. It takes one draw answer, and one sound answer for that
call alone. That the answers stand in lists and the calls in a log is the model's choice
(notes/assumptions/8.md, 13.md). -/
def Obligations.InterruptDrawsTheFramebuffer : Prop :=
  ∀ s t : State, s.displayPointer = BitVec.ofNat 16 (displayAddr s.cfg) → interrupt s = .next t →
    ∃ fb, fb.length = 256 ∧ (∀ k < 256, fb.getD k 0 = s.mem.read (displayAddr s.cfg + k)) ∧
      (s.toneTimer ≠ 1 → t.inputs = s.inputs.dropDraw ∧ t.events = .draw fb .ok :: s.events) ∧
      (s.toneTimer = 1 → t.inputs = s.inputs.dropDraw.dropSound ∧
        ∀ a, a = s.inputs.dropDraw.nextSound → t.events =
          (if a = .failure then [.soundFailure .stop] else []) ++ .sound .stop a :: .draw fb .ok :: s.events)

/-- R236, R230, R232, R255: a failing draw is fatal before any other effect, and the 256 bytes passed to it
are output all the same. That outputs stand in a log, and that the failed draw's answer is taken, is the
model's choice (notes/assumptions/8.md, 13.md). -/
def Obligations.DisplayFailureIsFatal : Prop :=
  ∀ s : State, s.displayPointer = BitVec.ofNat 16 (displayAddr s.cfg) → s.inputs.nextDraw = .failure →
    ∃ fb, fb.length = 256 ∧ (∀ k < 256, fb.getD k 0 = s.mem.read (displayAddr s.cfg + k)) ∧
      interrupt s = .fault (.fatal .displayFailure
        { s with halted := .fatal .displayFailure, inputs := s.inputs.dropDraw,
                 events := .draw fb .failure :: s.events })

/-! ### The scheduler -/

/-- R250, R254: one step of the exact scheduler. That the end of the run is the fault `completed` is the
model's choice (notes/assumptions/12.md). -/
def Obligations.ExactSchedulerStep : Prop :=
  ∀ s : State, s.halted = .running → s.cfg.timing = .exact →
    (s.sched.t < 16666667 → ∀ u, cycle s = .next u →
      step s = .next { u with sched := { t := s.sched.t + u.cost * 4540, frames := s.sched.frames } }) ∧
    (16666667 ≤ s.sched.t → (∀ n, s.cfg.numFrames = some n → s.sched.frames < n) →
      ∀ u, interrupt s = .next u →
      step s = .next { u with sched :=
        { t := s.sched.t - 16666667 + u.cost * 4540, frames := s.sched.frames + 1 } }) ∧
    (16666667 ≤ s.sched.t → ∀ n, s.cfg.numFrames = some n → n ≤ s.sched.frames →
      step s = .fault (.completed s))

/-- R253 lets either call come next. That a list of choices standing ready says which, and that the step
takes the first choice from it and changes nothing else around the call, is the model's choice
(notes/assumptions/9.md). -/
def Obligations.FreeSchedulerTakesTheInput : Prop :=
  ∀ (s : State) (b : Bool) (rest : List Bool), s.halted = .running → s.cfg.timing = .free →
    s.inputs.interrupts = b :: rest →
    ∀ u, (if b = true then interrupt s else cycle s) = .next u →
      step s = .next { u with inputs := u.inputs.dropInterrupt } ∧
      u.inputs.dropInterrupt = { u.inputs with interrupts := rest }

/-- R251: after a `cycle()` that ends a frame, the carry is below its own cost in nanoseconds. -/
def Obligations.CarryIsBelowTheLastCost : Prop :=
  ∀ s t : State, s.cfg.timing = .exact → nextCall s = .cycle → step s = .next t → 16666667 ≤ t.sched.t →
    t.sched.t - 16666667 < t.cost * 4540

/-- R273, R270: after construction the first call is `interrupt()`; it draws the constructed framebuffer,
adds 1 to the seed and costs 1831, and the next call fetches at 0x0200. That the draw stands in a log is the
model's choice (notes/assumptions/13.md). -/
def Obligations.FirstCallIsAnInterrupt : Prop :=
  ∀ (c : Config) (low : Vector Byte 512) (seed0 : Word) (inputs : Inputs) (rom : List Byte) (s : State),
    c.timing = .exact → c.numFrames ≠ some 0 → inputs.nextDraw = .ok →
    construct c low seed0 inputs rom = .next s →
    ∃ t, step s = .next t ∧ t.seed = seed0 + 1 ∧ t.cost = 1831 ∧ t.generalTimer = 0 ∧ t.toneTimer = 0 ∧
      t.events = [.draw (s.mem.readBytes (displayAddr c) 256) .ok] ∧ t.pc = 0x0200 ∧
      t.core = .fetchDecode ∧ t.mem = s.mem ∧ nextCall t = .cycle

/-! ### Construction -/

/-- R270, R271, R272: the constructed state for a ROM that fits, and the fault for one that does not. -/
def Obligations.ConstructionLoadsImageAndRom : Prop :=
  ∀ (c : Config) (low : Vector Byte 512) (seed0 : Word) (inputs : Inputs) (rom : List Byte),
    (0x200 + rom.length ≤ memSize c →
      ∃ s, construct c low seed0 inputs rom = .next s ∧
        (∀ (k : Nat) (h : k < 512), s.mem.read k = low[k]) ∧
        (∀ k < rom.length, s.mem.read (0x200 + k) = rom.getD k 0) ∧
        (∀ a, 0x200 + rom.length ≤ a → s.mem.read a = 0x00) ∧
        s.pc = 0x0200 ∧ s.sp.toNat = memSize c - 0x132 ∧ s.i = 0x0000 ∧ s.generalTimer = 0x00 ∧
        s.toneTimer = 0x00 ∧ s.seed = seed0 ∧ s.displayPointer.toNat = memSize c - 0x100 ∧
        s.core = .fetchDecode ∧ s.dec = { word := 0x0000, op := none, phase := .one } ∧
        s.vx = 0 ∧ s.vy = 0 ∧ s.halted = .running ∧ s.cfg = c ∧ s.inputs = inputs ∧ s.events = []) ∧
    (memSize c < 0x200 + rom.length →
      ∃ t, construct c low seed0 inputs rom = .fault (.fatal (.memoryBounds 0x200 rom.length .write) t) ∧
        t.halted = .fatal (.memoryBounds 0x200 rom.length .write) ∧ ∀ a, 0x200 ≤ a → t.mem.read a = 0x00)

/-! ### Memory, layout and costs -/

/-- R54, R55, R56: a write and a read inside `MEM_SIZE`, and the fault of each outside it. -/
def Obligations.AccessIsBounded : Prop :=
  (∀ (a : Nat) (bs : List Byte) (s : State),
    (a + bs.length ≤ memSize s.cfg →
      ∃ m, memWrite a bs s = .ok { s with mem := m } ∧
        (∀ k < bs.length, m.read (a + k) = bs.getD k 0) ∧
        (∀ b, ¬(a ≤ b ∧ b < a + bs.length) → m.read b = s.mem.read b)) ∧
    (memSize s.cfg < a + bs.length → memWrite a bs s = .error (.memoryBounds a bs.length .write))) ∧
  (∀ (a n : Nat) (s : State),
    (a + n ≤ memSize s.cfg →
      ∃ bs, memRead a n s = .ok bs ∧ bs.length = n ∧ ∀ k < n, bs.getD k 0 = s.mem.read (a + k)) ∧
    (memSize s.cfg < a + n → memRead a n s = .error (.memoryBounds a n .read))) ∧
  (∀ (a : Nat) (s : State),
    (a + 2 ≤ memSize s.cfg → ∃ w, memReadWord a s = .ok w ∧
      w.toNat = 256 * (s.mem.read a).toNat + (s.mem.read (a + 1)).toNat) ∧
    (memSize s.cfg < a + 2 → memReadWord a s = .error (.memoryBounds a 2 .read)))

/-- R51, R52: the regions are disjoint and ordered under every allowed `MEM_SIZE`, and the framebuffer
ends it. -/
def Obligations.RegionsAreDisjointAndOrdered : Prop :=
  ∀ c : Config, 0x200 ≤ programAddr ∧ programAddr ≤ stackRegionAddr c ∧
    stackRegionAddr c + 0x30 = workAddr c ∧ workAddr c + 0x20 = varAddr c ∧
    varAddr c + 0x10 = displayAddr c ∧ displayAddr c + 0x100 = memSize c ∧
    stackAddr c + 2 = workAddr c ∧ rndTableAddr + 0x100 ≤ 0x200

/-- R288: what constrains the OPEN entries of `CYC`. -/
def Obligations.OpenCostsAreConstrained : Prop :=
  ∀ c : Config, (∀ e, 1 ≤ cyc c e) ∧
    cyc c (.seVB true) > cyc c (.seVB false) ∧ cyc c (.sneVB true) > cyc c (.sneVB false) ∧
    cyc c (.seVV true) > cyc c (.seVV false) ∧ cyc c (.sneVV true) > cyc c (.sneVV false) ∧
    cyc c (.addIV false) ≠ cyc c (.addIV true)

/-! ### The whole machine -/

/-- R35, R50: the state after reset meets the invariant of a running block. -/
def Obligations.ResetMeetsInvariant : Prop := Inv State.reset

/-- R35, R270: every constructed state meets the invariant of a running block. -/
def Obligations.ConstructMeetsInvariant : Prop :=
  ∀ (c : Config) (low : Vector Byte 512) (seed0 : Word) (inputs : Inputs) (rom : List Byte) (s : State),
    construct c low seed0 inputs rom = .next s → Inv s

/-- R29, R31, R33, R34, R50: every step keeps the invariant of a running block. -/
def Obligations.StepKeepsInvariant : Prop :=
  ∀ s t : State, Inv s → step s = .next t → Inv t

/-- Rests on R231, on R232 (which the spec marks as derived, decision D47) and on R34: every fatal error
is precise and final. That a step of the halted block answers the same fault again, and that the failed
call is in the log of the final state with its answer taken, is the model's choice
(notes/assumptions/11.md, 13.md). -/
def Obligations.FatalErrorsArePreciseAndFinal : Prop :=
  ∀ (s t : State) (e : FatalError), s.halted = .running → step s = .fault (.fatal e t) →
    PreciseAt s e t ∧ t.halted = .fatal e ∧ step t = .fault (.fatal e t)

/-- R31, R101: a running block always has a step, or stops with a fatal error or at the end of its
frames. -/
def Obligations.RunningBlockIsNeverRefused : Prop :=
  ∀ s : State, Inv s → ∀ r, step s ≠ .refused r

/-- R29 and R35: no step writes `display_pointer` or a parameter. -/
def Obligations.ParametersNeverChange : Prop :=
  ∀ s t : State, step s = .next t → t.cfg = s.cfg ∧ t.displayPointer = s.displayPointer

/-- R24 to R28, R32, R184: the instructions that write each register, over the whole table. -/
def Obligations.RegistersHaveTheListedWriters : Prop :=
  ∀ (i : Instr) (s t : State), exec i s = .next t →
    (i.op ∉ [.ldIA, .addIV, .ldFV, .ldMV, .ldVM] → t.i = s.i) ∧
    (i.op ∉ [.call, .ret] → t.sp = s.sp) ∧
    (i.op ≠ .ldDTV → t.generalTimer = s.generalTimer) ∧
    (i.op ≠ .ldSTV → t.toneTimer = s.toneTimer) ∧
    (i.op ≠ .rnd → t.seed = s.seed) ∧
    (i.op ∉ [.ret, .jp, .call, .seVB, .sneVB, .seVV, .sneVV, .jpV0, .skp, .sknp, .ldVK] → t.pc = s.pc) ∧
    t.vx = s.vx ∧ t.vy = s.vy ∧ t.dec.word = s.dec.word ∧ t.dec.op = s.dec.op

/-- R53: no instruction but `FX33`, `FX55` and `2NNN` writes a byte below the work area. -/
def Obligations.ProgramBytesHaveThreeWriters : Prop :=
  ∀ (i : Instr) (s t : State), s.displayPointer = BitVec.ofNat 16 (displayAddr s.cfg) →
    exec i s = .next t → i.op ∉ [.ldBV, .ldMV, .call] →
    ∀ a, a < workAddr s.cfg → t.mem.read a = s.mem.read a

/-- R289: states that differ in costs alone answer every call alike but for costs, and in free mode every
step. -/
def Obligations.CostsOnlyPlaceInterrupts : Prop :=
  ∀ s s' : State, s.forgetCosts = s'.forgetCosts →
    forgetCosts (cycle s) = forgetCosts (cycle s') ∧
    forgetCosts (interrupt s) = forgetCosts (interrupt s') ∧
    (s.cfg.timing = .free → forgetCosts (step s) = forgetCosts (step s'))
end

