-- ==== Sys2Proof/Laws/Memory.lean ====
section
/-! SUPPORT. The laws of memory as data: reading after writing, and the canonical form. -/

namespace Sys2Proof.Machine

namespace Memory

@[simp] theorem read_nil (a : Nat) : Memory.read [] a = Memory.unlisted := rfl

@[simp] theorem read_cons (k : Nat) (v : Byte) (m : Memory) (a : Nat) :
    Memory.read ((k, v) :: m) a = if k = a then v else Memory.read m a := rfl

theorem read_insert (m : Memory) (a : Nat) (v : Byte) (h : ∀ c ∈ m, c.1 ≠ a) (b : Nat) :
    (Memory.insert m a v).read b = if b = a then v else m.read b := by
  induction m with
  | nil => simp [Memory.insert, eq_comm]
  | cons c m ih =>
    obtain ⟨k, w⟩ := c
    have hc : k ≠ a := h (k, w) (by simp)
    have ih' := ih fun d hd => h d (by simp [hd])
    simp only [Memory.insert]
    split <;> simp only [read_cons, ih'] <;> grind

theorem read_erase (m : Memory) (a b : Nat) :
    Memory.read (m.filter fun c => c.1 != a) b = if b = a then Memory.unlisted else m.read b := by
  induction m with
  | nil => simp
  | cons c m ih =>
    obtain ⟨k, w⟩ := c
    rw [List.filter_cons]
    split <;> simp only [read_cons, ih] <;> grind

/-- A read after a write of one byte (R59). -/
@[simp] theorem read_write (m : Memory) (a : Nat) (v : Byte) (b : Nat) :
    (m.write a v).read b = if b = a then v else m.read b := by
  unfold Memory.write
  split
  · rw [read_erase]; grind
  · rw [read_insert _ _ _ (by simp), read_erase]; grind

/-- A read after a write of several bytes. -/
theorem read_writeBytes (bs : List Byte) (m : Memory) (a b : Nat) :
    (m.writeBytes a bs).read b = if a ≤ b ∧ b < a + bs.length then bs.getD (b - a) 0 else m.read b := by
  induction bs generalizing m a with
  | nil => simp [Memory.writeBytes]
  | cons x bs ih =>
    simp only [Memory.writeBytes, ih, read_write, List.length_cons]
    by_cases h : b = a
    · subst h; simp
    · by_cases h2 : a + 1 ≤ b
      · obtain ⟨k, rfl⟩ := Nat.exists_eq_add_of_le h2
        have e1 : a + 1 + k - (a + 1) = k := by omega
        have e2 : a + 1 + k - a = k + 1 := by omega
        simp only [e1, e2, List.getD_cons_succ]
        grind
      · grind

@[simp] theorem readBytes_length (m : Memory) (a n : Nat) : (m.readBytes a n).length = n := by
  simp [Memory.readBytes]

theorem readBytes_getD (m : Memory) (a n k : Nat) (h : k < n) :
    (m.readBytes a n).getD k 0 = m.read (a + k) := by
  simp [Memory.readBytes, List.getD, h]

/-- Equal bytes give equal lists. -/
theorem readBytes_congr {m m' : Memory} {a n : Nat}
    (h : ∀ k < n, m.read (a + k) = m'.read (a + k)) : m.readBytes a n = m'.readBytes a n := by
  apply List.map_congr_left
  intro k hk
  exact h k (List.mem_range.1 hk)

/-! ### The canonical form -/

theorem mem_insert {m : Memory} {a : Nat} {v : Byte} {c : Host.Cell} :
    c ∈ Memory.insert m a v ↔ c = (a, v) ∨ c ∈ m := by
  induction m with
  | nil => simp [Memory.insert]
  | cons d m ih =>
    simp only [Memory.insert]
    split <;> simp only [List.mem_cons, ih]
    grind

theorem insert_pairwise {m : Memory} {a : Nat} {v : Byte} (h : m.Pairwise fun c d => c.1 < d.1)
    (hne : ∀ c ∈ m, c.1 ≠ a) : (Memory.insert m a v).Pairwise fun c d => c.1 < d.1 := by
  induction m with
  | nil => simp [Memory.insert]
  | cons d m ih =>
    rw [List.pairwise_cons] at h
    have hd : d.1 ≠ a := hne d (by simp)
    have ih' := ih h.2 fun c hc => hne c (by simp [hc])
    simp only [Memory.insert]
    split
    · rw [List.pairwise_cons, List.pairwise_cons]
      grind
    · rw [List.pairwise_cons]
      refine ⟨fun c hc => ?_, ih'⟩
      rcases mem_insert.1 hc with rfl | hc
      · simp only; omega
      · exact h.1 c hc

/-- Writing a byte keeps the canonical form. -/
theorem wf_write {m : Memory} (h : m.wf) (a : Nat) (v : Byte) : (m.write a v).wf := by
  have hp : (m.filter fun c => c.1 != a).Pairwise fun c d => c.1 < d.1 := h.1.filter _
  unfold Memory.write
  split
  · exact ⟨hp, fun c hc => h.2 c (List.mem_of_mem_filter hc)⟩
  · refine ⟨insert_pairwise hp (by simp), fun c hc => ?_⟩
    rcases mem_insert.1 hc with rfl | hc
    · assumption
    · exact h.2 c (List.mem_of_mem_filter hc)

theorem wf_writeBytes {m : Memory} (h : m.wf) (a : Nat) (bs : List Byte) : (m.writeBytes a bs).wf := by
  induction bs generalizing m a with
  | nil => exact h
  | cons b bs ih => exact ih (wf_write h a b) _

/-- A write below a bound lists nothing past it. -/
theorem below_write {m : Memory} {n a : Nat} (h : m.below n) (ha : a < n) (v : Byte) :
    (m.write a v).below n := by
  unfold Memory.write
  intro c hc
  split at hc
  · exact h c (List.mem_of_mem_filter hc)
  · rcases mem_insert.1 hc with rfl | hc
    · exact ha
    · exact h c (List.mem_of_mem_filter hc)

theorem below_writeBytes {m : Memory} {n a : Nat} (h : m.below n) (bs : List Byte)
    (ha : a + bs.length ≤ n) : (m.writeBytes a bs).below n := by
  induction bs generalizing m a with
  | nil => exact h
  | cons b bs ih =>
    simp only [List.length_cons] at ha
    exact ih (below_write h (by omega) b) (by omega)

end Memory

end Sys2Proof.Machine
end

