-- ==== Sys2Proof/Laws/State.lean ====
section
/-! SUPPORT. What each named update of the state leaves and writes, field by field, so that no proof unfolds a
record update. -/

namespace Sys2Proof.Machine

variable (s : State)

/-! ### The free scheduler's choices: no collaborator's answer takes one -/

@[simp] theorem Inputs.dropKey_interrupts (i : Inputs) : i.dropKey.interrupts = i.interrupts := by
  unfold Inputs.dropKey; split <;> rfl
@[simp] theorem Inputs.dropDraw_interrupts (i : Inputs) : i.dropDraw.interrupts = i.interrupts := by
  unfold Inputs.dropDraw; split <;> rfl
@[simp] theorem Inputs.dropSound_interrupts (i : Inputs) : i.dropSound.interrupts = i.interrupts := by
  unfold Inputs.dropSound; split <;> rfl

/-! ### `State.setV` -/

@[simp] theorem State.setV_mem (x : Nibble) (b : Byte) : (s.setV x b).mem = s.mem.write (vAddr s.cfg x) b := rfl
@[simp] theorem State.setV_pc (x : Nibble) (b : Byte) : (s.setV x b).pc = s.pc := rfl
@[simp] theorem State.setV_i (x : Nibble) (b : Byte) : (s.setV x b).i = s.i := rfl
@[simp] theorem State.setV_sp (x : Nibble) (b : Byte) : (s.setV x b).sp = s.sp := rfl
@[simp] theorem State.setV_generalTimer (x : Nibble) (b : Byte) : (s.setV x b).generalTimer = s.generalTimer := rfl
@[simp] theorem State.setV_toneTimer (x : Nibble) (b : Byte) : (s.setV x b).toneTimer = s.toneTimer := rfl
@[simp] theorem State.setV_seed (x : Nibble) (b : Byte) : (s.setV x b).seed = s.seed := rfl
@[simp] theorem State.setV_displayPointer (x : Nibble) (b : Byte) : (s.setV x b).displayPointer = s.displayPointer := rfl
@[simp] theorem State.setV_core (x : Nibble) (b : Byte) : (s.setV x b).core = s.core := rfl
@[simp] theorem State.setV_dec (x : Nibble) (b : Byte) : (s.setV x b).dec = s.dec := rfl
@[simp] theorem State.setV_vx (x : Nibble) (b : Byte) : (s.setV x b).vx = s.vx := rfl
@[simp] theorem State.setV_vy (x : Nibble) (b : Byte) : (s.setV x b).vy = s.vy := rfl
@[simp] theorem State.setV_halted (x : Nibble) (b : Byte) : (s.setV x b).halted = s.halted := rfl
@[simp] theorem State.setV_cfg (x : Nibble) (b : Byte) : (s.setV x b).cfg = s.cfg := rfl
@[simp] theorem State.setV_sched (x : Nibble) (b : Byte) : (s.setV x b).sched = s.sched := rfl
@[simp] theorem State.setV_cost (x : Nibble) (b : Byte) : (s.setV x b).cost = s.cost := rfl
@[simp] theorem State.setV_inputs (x : Nibble) (b : Byte) : (s.setV x b).inputs = s.inputs := rfl
@[simp] theorem State.setV_events (x : Nibble) (b : Byte) : (s.setV x b).events = s.events := rfl

/-! ### `State.report` -/

@[simp] theorem State.report_mem (c : Nat) : (s.report c).mem = s.mem := rfl
@[simp] theorem State.report_pc (c : Nat) : (s.report c).pc = s.pc := rfl
@[simp] theorem State.report_i (c : Nat) : (s.report c).i = s.i := rfl
@[simp] theorem State.report_sp (c : Nat) : (s.report c).sp = s.sp := rfl
@[simp] theorem State.report_generalTimer (c : Nat) : (s.report c).generalTimer = s.generalTimer := rfl
@[simp] theorem State.report_toneTimer (c : Nat) : (s.report c).toneTimer = s.toneTimer := rfl
@[simp] theorem State.report_seed (c : Nat) : (s.report c).seed = s.seed := rfl
@[simp] theorem State.report_displayPointer (c : Nat) : (s.report c).displayPointer = s.displayPointer := rfl
@[simp] theorem State.report_core (c : Nat) : (s.report c).core = s.core := rfl
@[simp] theorem State.report_dec (c : Nat) : (s.report c).dec = s.dec := rfl
@[simp] theorem State.report_vx (c : Nat) : (s.report c).vx = s.vx := rfl
@[simp] theorem State.report_vy (c : Nat) : (s.report c).vy = s.vy := rfl
@[simp] theorem State.report_halted (c : Nat) : (s.report c).halted = s.halted := rfl
@[simp] theorem State.report_cfg (c : Nat) : (s.report c).cfg = s.cfg := rfl
@[simp] theorem State.report_sched (c : Nat) : (s.report c).sched = s.sched := rfl
@[simp] theorem State.report_cost (c : Nat) : (s.report c).cost = c := rfl
@[simp] theorem State.report_inputs (c : Nat) : (s.report c).inputs = s.inputs := rfl
@[simp] theorem State.report_events (c : Nat) : (s.report c).events = s.events := rfl

/-! ### `State.skip` -/

@[simp] theorem State.skip_mem : (s.skip).mem = s.mem := rfl
@[simp] theorem State.skip_pc : (s.skip).pc = s.pc + 2 := rfl
@[simp] theorem State.skip_i : (s.skip).i = s.i := rfl
@[simp] theorem State.skip_sp : (s.skip).sp = s.sp := rfl
@[simp] theorem State.skip_generalTimer : (s.skip).generalTimer = s.generalTimer := rfl
@[simp] theorem State.skip_toneTimer : (s.skip).toneTimer = s.toneTimer := rfl
@[simp] theorem State.skip_seed : (s.skip).seed = s.seed := rfl
@[simp] theorem State.skip_displayPointer : (s.skip).displayPointer = s.displayPointer := rfl
@[simp] theorem State.skip_core : (s.skip).core = s.core := rfl
@[simp] theorem State.skip_dec : (s.skip).dec = s.dec := rfl
@[simp] theorem State.skip_vx : (s.skip).vx = s.vx := rfl
@[simp] theorem State.skip_vy : (s.skip).vy = s.vy := rfl
@[simp] theorem State.skip_halted : (s.skip).halted = s.halted := rfl
@[simp] theorem State.skip_cfg : (s.skip).cfg = s.cfg := rfl
@[simp] theorem State.skip_sched : (s.skip).sched = s.sched := rfl
@[simp] theorem State.skip_cost : (s.skip).cost = s.cost := rfl
@[simp] theorem State.skip_inputs : (s.skip).inputs = s.inputs := rfl
@[simp] theorem State.skip_events : (s.skip).events = s.events := rfl

/-! ### `State.polled` -/

@[simp] theorem State.polled_mem : (s.polled).mem = s.mem := rfl
@[simp] theorem State.polled_pc : (s.polled).pc = s.pc := rfl
@[simp] theorem State.polled_i : (s.polled).i = s.i := rfl
@[simp] theorem State.polled_sp : (s.polled).sp = s.sp := rfl
@[simp] theorem State.polled_generalTimer : (s.polled).generalTimer = s.generalTimer := rfl
@[simp] theorem State.polled_toneTimer : (s.polled).toneTimer = s.toneTimer := rfl
@[simp] theorem State.polled_seed : (s.polled).seed = s.seed := rfl
@[simp] theorem State.polled_displayPointer : (s.polled).displayPointer = s.displayPointer := rfl
@[simp] theorem State.polled_core : (s.polled).core = s.core := rfl
@[simp] theorem State.polled_dec : (s.polled).dec = s.dec := rfl
@[simp] theorem State.polled_vx : (s.polled).vx = s.vx := rfl
@[simp] theorem State.polled_vy : (s.polled).vy = s.vy := rfl
@[simp] theorem State.polled_halted : (s.polled).halted = s.halted := rfl
@[simp] theorem State.polled_cfg : (s.polled).cfg = s.cfg := rfl
@[simp] theorem State.polled_sched : (s.polled).sched = s.sched := rfl
@[simp] theorem State.polled_cost : (s.polled).cost = s.cost := rfl
@[simp] theorem State.polled_inputs : (s.polled).inputs = s.inputs.dropKey := rfl
@[simp] theorem State.polled_events : (s.polled).events = .poll s.inputs.nextKey :: s.events := rfl

/-! ### `State.drawn` -/

@[simp] theorem State.drawn_mem (fb : List Byte) : (s.drawn fb).mem = s.mem := rfl
@[simp] theorem State.drawn_pc (fb : List Byte) : (s.drawn fb).pc = s.pc := rfl
@[simp] theorem State.drawn_i (fb : List Byte) : (s.drawn fb).i = s.i := rfl
@[simp] theorem State.drawn_sp (fb : List Byte) : (s.drawn fb).sp = s.sp := rfl
@[simp] theorem State.drawn_generalTimer (fb : List Byte) : (s.drawn fb).generalTimer = s.generalTimer := rfl
@[simp] theorem State.drawn_toneTimer (fb : List Byte) : (s.drawn fb).toneTimer = s.toneTimer := rfl
@[simp] theorem State.drawn_seed (fb : List Byte) : (s.drawn fb).seed = s.seed := rfl
@[simp] theorem State.drawn_displayPointer (fb : List Byte) : (s.drawn fb).displayPointer = s.displayPointer := rfl
@[simp] theorem State.drawn_core (fb : List Byte) : (s.drawn fb).core = s.core := rfl
@[simp] theorem State.drawn_dec (fb : List Byte) : (s.drawn fb).dec = s.dec := rfl
@[simp] theorem State.drawn_vx (fb : List Byte) : (s.drawn fb).vx = s.vx := rfl
@[simp] theorem State.drawn_vy (fb : List Byte) : (s.drawn fb).vy = s.vy := rfl
@[simp] theorem State.drawn_halted (fb : List Byte) : (s.drawn fb).halted = s.halted := rfl
@[simp] theorem State.drawn_cfg (fb : List Byte) : (s.drawn fb).cfg = s.cfg := rfl
@[simp] theorem State.drawn_sched (fb : List Byte) : (s.drawn fb).sched = s.sched := rfl
@[simp] theorem State.drawn_cost (fb : List Byte) : (s.drawn fb).cost = s.cost := rfl
@[simp] theorem State.drawn_inputs (fb : List Byte) : (s.drawn fb).inputs = s.inputs.dropDraw := rfl
@[simp] theorem State.drawn_events (fb : List Byte) : (s.drawn fb).events =
    .draw fb s.inputs.nextDraw :: s.events := rfl

/-! ### `State.callSound` -/

@[simp] theorem State.callSound_mem (call : SoundCall) : (s.callSound call).mem = s.mem := rfl
@[simp] theorem State.callSound_pc (call : SoundCall) : (s.callSound call).pc = s.pc := rfl
@[simp] theorem State.callSound_i (call : SoundCall) : (s.callSound call).i = s.i := rfl
@[simp] theorem State.callSound_sp (call : SoundCall) : (s.callSound call).sp = s.sp := rfl
@[simp] theorem State.callSound_generalTimer (call : SoundCall) : (s.callSound call).generalTimer = s.generalTimer := rfl
@[simp] theorem State.callSound_toneTimer (call : SoundCall) : (s.callSound call).toneTimer = s.toneTimer := rfl
@[simp] theorem State.callSound_seed (call : SoundCall) : (s.callSound call).seed = s.seed := rfl
@[simp] theorem State.callSound_displayPointer (call : SoundCall) : (s.callSound call).displayPointer = s.displayPointer := rfl
@[simp] theorem State.callSound_core (call : SoundCall) : (s.callSound call).core = s.core := rfl
@[simp] theorem State.callSound_dec (call : SoundCall) : (s.callSound call).dec = s.dec := rfl
@[simp] theorem State.callSound_vx (call : SoundCall) : (s.callSound call).vx = s.vx := rfl
@[simp] theorem State.callSound_vy (call : SoundCall) : (s.callSound call).vy = s.vy := rfl
@[simp] theorem State.callSound_halted (call : SoundCall) : (s.callSound call).halted = s.halted := rfl
@[simp] theorem State.callSound_cfg (call : SoundCall) : (s.callSound call).cfg = s.cfg := rfl
@[simp] theorem State.callSound_sched (call : SoundCall) : (s.callSound call).sched = s.sched := rfl
@[simp] theorem State.callSound_cost (call : SoundCall) : (s.callSound call).cost = s.cost := rfl
@[simp] theorem State.callSound_inputs (call : SoundCall) : (s.callSound call).inputs = s.inputs.dropSound := rfl

/-! ### `soundEdge` -/

@[simp] theorem soundEdge_mem (old new : Byte) : (soundEdge old new s).mem = s.mem := by
  unfold soundEdge; split <;> [rfl; (split <;> rfl)]
@[simp] theorem soundEdge_pc (old new : Byte) : (soundEdge old new s).pc = s.pc := by
  unfold soundEdge; split <;> [rfl; (split <;> rfl)]
@[simp] theorem soundEdge_i (old new : Byte) : (soundEdge old new s).i = s.i := by
  unfold soundEdge; split <;> [rfl; (split <;> rfl)]
@[simp] theorem soundEdge_sp (old new : Byte) : (soundEdge old new s).sp = s.sp := by
  unfold soundEdge; split <;> [rfl; (split <;> rfl)]
@[simp] theorem soundEdge_generalTimer (old new : Byte) : (soundEdge old new s).generalTimer = s.generalTimer := by
  unfold soundEdge; split <;> [rfl; (split <;> rfl)]
@[simp] theorem soundEdge_toneTimer (old new : Byte) : (soundEdge old new s).toneTimer = s.toneTimer := by
  unfold soundEdge; split <;> [rfl; (split <;> rfl)]
@[simp] theorem soundEdge_seed (old new : Byte) : (soundEdge old new s).seed = s.seed := by
  unfold soundEdge; split <;> [rfl; (split <;> rfl)]
@[simp] theorem soundEdge_displayPointer (old new : Byte) : (soundEdge old new s).displayPointer = s.displayPointer := by
  unfold soundEdge; split <;> [rfl; (split <;> rfl)]
@[simp] theorem soundEdge_core (old new : Byte) : (soundEdge old new s).core = s.core := by
  unfold soundEdge; split <;> [rfl; (split <;> rfl)]
@[simp] theorem soundEdge_dec (old new : Byte) : (soundEdge old new s).dec = s.dec := by
  unfold soundEdge; split <;> [rfl; (split <;> rfl)]
@[simp] theorem soundEdge_vx (old new : Byte) : (soundEdge old new s).vx = s.vx := by
  unfold soundEdge; split <;> [rfl; (split <;> rfl)]
@[simp] theorem soundEdge_vy (old new : Byte) : (soundEdge old new s).vy = s.vy := by
  unfold soundEdge; split <;> [rfl; (split <;> rfl)]
@[simp] theorem soundEdge_halted (old new : Byte) : (soundEdge old new s).halted = s.halted := by
  unfold soundEdge; split <;> [rfl; (split <;> rfl)]
@[simp] theorem soundEdge_cfg (old new : Byte) : (soundEdge old new s).cfg = s.cfg := by
  unfold soundEdge; split <;> [rfl; (split <;> rfl)]
@[simp] theorem soundEdge_sched (old new : Byte) : (soundEdge old new s).sched = s.sched := by
  unfold soundEdge; split <;> [rfl; (split <;> rfl)]
@[simp] theorem soundEdge_cost (old new : Byte) : (soundEdge old new s).cost = s.cost := by
  unfold soundEdge; split <;> [rfl; (split <;> rfl)]

@[simp] theorem soundEdge_interrupts (old new : Byte) :
    (soundEdge old new s).inputs.interrupts = s.inputs.interrupts := by
  unfold soundEdge; split <;> [simp; (split <;> simp)]

/-! ### `logicFlag` -/

@[simp] theorem logicFlag_pc  : (logicFlag s).pc = s.pc := by
  unfold logicFlag; split <;> rfl
@[simp] theorem logicFlag_i  : (logicFlag s).i = s.i := by
  unfold logicFlag; split <;> rfl
@[simp] theorem logicFlag_sp  : (logicFlag s).sp = s.sp := by
  unfold logicFlag; split <;> rfl
@[simp] theorem logicFlag_generalTimer  : (logicFlag s).generalTimer = s.generalTimer := by
  unfold logicFlag; split <;> rfl
@[simp] theorem logicFlag_toneTimer  : (logicFlag s).toneTimer = s.toneTimer := by
  unfold logicFlag; split <;> rfl
@[simp] theorem logicFlag_seed  : (logicFlag s).seed = s.seed := by
  unfold logicFlag; split <;> rfl
@[simp] theorem logicFlag_displayPointer  : (logicFlag s).displayPointer = s.displayPointer := by
  unfold logicFlag; split <;> rfl
@[simp] theorem logicFlag_core  : (logicFlag s).core = s.core := by
  unfold logicFlag; split <;> rfl
@[simp] theorem logicFlag_dec  : (logicFlag s).dec = s.dec := by
  unfold logicFlag; split <;> rfl
@[simp] theorem logicFlag_vx  : (logicFlag s).vx = s.vx := by
  unfold logicFlag; split <;> rfl
@[simp] theorem logicFlag_vy  : (logicFlag s).vy = s.vy := by
  unfold logicFlag; split <;> rfl
@[simp] theorem logicFlag_halted  : (logicFlag s).halted = s.halted := by
  unfold logicFlag; split <;> rfl
@[simp] theorem logicFlag_cfg  : (logicFlag s).cfg = s.cfg := by
  unfold logicFlag; split <;> rfl
@[simp] theorem logicFlag_sched  : (logicFlag s).sched = s.sched := by
  unfold logicFlag; split <;> rfl
@[simp] theorem logicFlag_cost  : (logicFlag s).cost = s.cost := by
  unfold logicFlag; split <;> rfl
@[simp] theorem logicFlag_inputs  : (logicFlag s).inputs = s.inputs := by
  unfold logicFlag; split <;> rfl
@[simp] theorem logicFlag_events  : (logicFlag s).events = s.events := by
  unfold logicFlag; split <;> rfl

/-! ### `tickGeneral` -/

@[simp] theorem tickGeneral_mem  : (tickGeneral s).mem = s.mem := by
  unfold tickGeneral; split <;> rfl
@[simp] theorem tickGeneral_pc  : (tickGeneral s).pc = s.pc := by
  unfold tickGeneral; split <;> rfl
@[simp] theorem tickGeneral_i  : (tickGeneral s).i = s.i := by
  unfold tickGeneral; split <;> rfl
@[simp] theorem tickGeneral_sp  : (tickGeneral s).sp = s.sp := by
  unfold tickGeneral; split <;> rfl
@[simp] theorem tickGeneral_toneTimer  : (tickGeneral s).toneTimer = s.toneTimer := by
  unfold tickGeneral; split <;> rfl
@[simp] theorem tickGeneral_seed  : (tickGeneral s).seed = s.seed := by
  unfold tickGeneral; split <;> rfl
@[simp] theorem tickGeneral_displayPointer  : (tickGeneral s).displayPointer = s.displayPointer := by
  unfold tickGeneral; split <;> rfl
@[simp] theorem tickGeneral_core  : (tickGeneral s).core = s.core := by
  unfold tickGeneral; split <;> rfl
@[simp] theorem tickGeneral_dec  : (tickGeneral s).dec = s.dec := by
  unfold tickGeneral; split <;> rfl
@[simp] theorem tickGeneral_vx  : (tickGeneral s).vx = s.vx := by
  unfold tickGeneral; split <;> rfl
@[simp] theorem tickGeneral_vy  : (tickGeneral s).vy = s.vy := by
  unfold tickGeneral; split <;> rfl
@[simp] theorem tickGeneral_halted  : (tickGeneral s).halted = s.halted := by
  unfold tickGeneral; split <;> rfl
@[simp] theorem tickGeneral_cfg  : (tickGeneral s).cfg = s.cfg := by
  unfold tickGeneral; split <;> rfl
@[simp] theorem tickGeneral_sched  : (tickGeneral s).sched = s.sched := by
  unfold tickGeneral; split <;> rfl
@[simp] theorem tickGeneral_inputs  : (tickGeneral s).inputs = s.inputs := by
  unfold tickGeneral; split <;> rfl
@[simp] theorem tickGeneral_events  : (tickGeneral s).events = s.events := by
  unfold tickGeneral; split <;> rfl

/-! ### `tickTone` -/

@[simp] theorem tickTone_mem  : (tickTone s).mem = s.mem := by
  unfold tickTone; split <;> simp
@[simp] theorem tickTone_pc  : (tickTone s).pc = s.pc := by
  unfold tickTone; split <;> simp
@[simp] theorem tickTone_i  : (tickTone s).i = s.i := by
  unfold tickTone; split <;> simp
@[simp] theorem tickTone_sp  : (tickTone s).sp = s.sp := by
  unfold tickTone; split <;> simp
@[simp] theorem tickTone_generalTimer  : (tickTone s).generalTimer = s.generalTimer := by
  unfold tickTone; split <;> simp
@[simp] theorem tickTone_seed  : (tickTone s).seed = s.seed := by
  unfold tickTone; split <;> simp
@[simp] theorem tickTone_displayPointer  : (tickTone s).displayPointer = s.displayPointer := by
  unfold tickTone; split <;> simp
@[simp] theorem tickTone_core  : (tickTone s).core = s.core := by
  unfold tickTone; split <;> simp
@[simp] theorem tickTone_dec  : (tickTone s).dec = s.dec := by
  unfold tickTone; split <;> simp
@[simp] theorem tickTone_vx  : (tickTone s).vx = s.vx := by
  unfold tickTone; split <;> simp
@[simp] theorem tickTone_vy  : (tickTone s).vy = s.vy := by
  unfold tickTone; split <;> simp
@[simp] theorem tickTone_halted  : (tickTone s).halted = s.halted := by
  unfold tickTone; split <;> simp
@[simp] theorem tickTone_cfg  : (tickTone s).cfg = s.cfg := by
  unfold tickTone; split <;> simp
@[simp] theorem tickTone_sched  : (tickTone s).sched = s.sched := by
  unfold tickTone; split <;> simp

@[simp] theorem tickTone_interrupts : (tickTone s).inputs.interrupts = s.inputs.interrupts := by
  unfold tickTone; split <;> simp

/-! ### `resumeDraw` -/

@[simp] theorem resumeDraw_mem  : (resumeDraw s).mem = s.mem := by
  unfold resumeDraw; split <;> rfl
@[simp] theorem resumeDraw_pc  : (resumeDraw s).pc = s.pc := by
  unfold resumeDraw; split <;> rfl
@[simp] theorem resumeDraw_i  : (resumeDraw s).i = s.i := by
  unfold resumeDraw; split <;> rfl
@[simp] theorem resumeDraw_sp  : (resumeDraw s).sp = s.sp := by
  unfold resumeDraw; split <;> rfl
@[simp] theorem resumeDraw_generalTimer  : (resumeDraw s).generalTimer = s.generalTimer := by
  unfold resumeDraw; split <;> rfl
@[simp] theorem resumeDraw_toneTimer  : (resumeDraw s).toneTimer = s.toneTimer := by
  unfold resumeDraw; split <;> rfl
@[simp] theorem resumeDraw_seed  : (resumeDraw s).seed = s.seed := by
  unfold resumeDraw; split <;> rfl
@[simp] theorem resumeDraw_displayPointer  : (resumeDraw s).displayPointer = s.displayPointer := by
  unfold resumeDraw; split <;> rfl
@[simp] theorem resumeDraw_dec  : (resumeDraw s).dec = s.dec := by
  unfold resumeDraw; split <;> rfl
@[simp] theorem resumeDraw_vx  : (resumeDraw s).vx = s.vx := by
  unfold resumeDraw; split <;> rfl
@[simp] theorem resumeDraw_vy  : (resumeDraw s).vy = s.vy := by
  unfold resumeDraw; split <;> rfl
@[simp] theorem resumeDraw_halted  : (resumeDraw s).halted = s.halted := by
  unfold resumeDraw; split <;> rfl
@[simp] theorem resumeDraw_cfg  : (resumeDraw s).cfg = s.cfg := by
  unfold resumeDraw; split <;> rfl
@[simp] theorem resumeDraw_sched  : (resumeDraw s).sched = s.sched := by
  unfold resumeDraw; split <;> rfl
@[simp] theorem resumeDraw_cost  : (resumeDraw s).cost = s.cost := by
  unfold resumeDraw; split <;> rfl
@[simp] theorem resumeDraw_inputs  : (resumeDraw s).inputs = s.inputs := by
  unfold resumeDraw; split <;> rfl
@[simp] theorem resumeDraw_events  : (resumeDraw s).events = s.events := by
  unfold resumeDraw; split <;> rfl

@[simp] theorem resumeDraw_core :
    (resumeDraw s).core = if s.core = .waitInterrupt then .execute else s.core := by
  unfold resumeDraw; split <;> rfl

/-! ### `setResultFlag` and `skipIf` -/

@[simp] theorem setResultFlag_pc (x : Nibble) (r : Byte) (b : Bool) : (setResultFlag x r b s).pc = s.pc := rfl
@[simp] theorem setResultFlag_i (x : Nibble) (r : Byte) (b : Bool) : (setResultFlag x r b s).i = s.i := rfl
@[simp] theorem setResultFlag_sp (x : Nibble) (r : Byte) (b : Bool) : (setResultFlag x r b s).sp = s.sp := rfl
@[simp] theorem setResultFlag_generalTimer (x : Nibble) (r : Byte) (b : Bool) : (setResultFlag x r b s).generalTimer = s.generalTimer := rfl
@[simp] theorem setResultFlag_toneTimer (x : Nibble) (r : Byte) (b : Bool) : (setResultFlag x r b s).toneTimer = s.toneTimer := rfl
@[simp] theorem setResultFlag_seed (x : Nibble) (r : Byte) (b : Bool) : (setResultFlag x r b s).seed = s.seed := rfl
@[simp] theorem setResultFlag_displayPointer (x : Nibble) (r : Byte) (b : Bool) : (setResultFlag x r b s).displayPointer = s.displayPointer := rfl
@[simp] theorem setResultFlag_core (x : Nibble) (r : Byte) (b : Bool) : (setResultFlag x r b s).core = s.core := rfl
@[simp] theorem setResultFlag_dec (x : Nibble) (r : Byte) (b : Bool) : (setResultFlag x r b s).dec = s.dec := rfl
@[simp] theorem setResultFlag_vx (x : Nibble) (r : Byte) (b : Bool) : (setResultFlag x r b s).vx = s.vx := rfl
@[simp] theorem setResultFlag_vy (x : Nibble) (r : Byte) (b : Bool) : (setResultFlag x r b s).vy = s.vy := rfl
@[simp] theorem setResultFlag_halted (x : Nibble) (r : Byte) (b : Bool) : (setResultFlag x r b s).halted = s.halted := rfl
@[simp] theorem setResultFlag_cfg (x : Nibble) (r : Byte) (b : Bool) : (setResultFlag x r b s).cfg = s.cfg := rfl
@[simp] theorem setResultFlag_sched (x : Nibble) (r : Byte) (b : Bool) : (setResultFlag x r b s).sched = s.sched := rfl
@[simp] theorem setResultFlag_cost (x : Nibble) (r : Byte) (b : Bool) : (setResultFlag x r b s).cost = s.cost := rfl
@[simp] theorem setResultFlag_inputs (x : Nibble) (r : Byte) (b : Bool) : (setResultFlag x r b s).inputs = s.inputs := rfl
@[simp] theorem setResultFlag_events (x : Nibble) (r : Byte) (b : Bool) : (setResultFlag x r b s).events = s.events := rfl

@[simp] theorem skipIf_mem (c : Bool) (e : Bool → CycEntry) : (skipIf c e s).mem = s.mem := by
  cases c <;> rfl
@[simp] theorem skipIf_pc (c : Bool) (e : Bool → CycEntry) :
    (skipIf c e s).pc = if c then s.pc + 2 else s.pc := by
  cases c <;> rfl
@[simp] theorem skipIf_i (c : Bool) (e : Bool → CycEntry) : (skipIf c e s).i = s.i := by
  cases c <;> rfl
@[simp] theorem skipIf_sp (c : Bool) (e : Bool → CycEntry) : (skipIf c e s).sp = s.sp := by
  cases c <;> rfl
@[simp] theorem skipIf_generalTimer (c : Bool) (e : Bool → CycEntry) : (skipIf c e s).generalTimer = s.generalTimer := by
  cases c <;> rfl
@[simp] theorem skipIf_toneTimer (c : Bool) (e : Bool → CycEntry) : (skipIf c e s).toneTimer = s.toneTimer := by
  cases c <;> rfl
@[simp] theorem skipIf_seed (c : Bool) (e : Bool → CycEntry) : (skipIf c e s).seed = s.seed := by
  cases c <;> rfl
@[simp] theorem skipIf_displayPointer (c : Bool) (e : Bool → CycEntry) : (skipIf c e s).displayPointer = s.displayPointer := by
  cases c <;> rfl
@[simp] theorem skipIf_core (c : Bool) (e : Bool → CycEntry) : (skipIf c e s).core = s.core := by
  cases c <;> rfl
@[simp] theorem skipIf_dec (c : Bool) (e : Bool → CycEntry) : (skipIf c e s).dec = s.dec := by
  cases c <;> rfl
@[simp] theorem skipIf_vx (c : Bool) (e : Bool → CycEntry) : (skipIf c e s).vx = s.vx := by
  cases c <;> rfl
@[simp] theorem skipIf_vy (c : Bool) (e : Bool → CycEntry) : (skipIf c e s).vy = s.vy := by
  cases c <;> rfl
@[simp] theorem skipIf_halted (c : Bool) (e : Bool → CycEntry) : (skipIf c e s).halted = s.halted := by
  cases c <;> rfl
@[simp] theorem skipIf_cfg (c : Bool) (e : Bool → CycEntry) : (skipIf c e s).cfg = s.cfg := by
  cases c <;> rfl
@[simp] theorem skipIf_sched (c : Bool) (e : Bool → CycEntry) : (skipIf c e s).sched = s.sched := by
  cases c <;> rfl
@[simp] theorem skipIf_cost (c : Bool) (e : Bool → CycEntry) : (skipIf c e s).cost = cyc s.cfg (e c) := by
  cases c <;> rfl
@[simp] theorem skipIf_inputs (c : Bool) (e : Bool → CycEntry) : (skipIf c e s).inputs = s.inputs := by
  cases c <;> rfl
@[simp] theorem skipIf_events (c : Bool) (e : Bool → CycEntry) : (skipIf c e s).events = s.events := by
  cases c <;> rfl

end Sys2Proof.Machine
end

