-- ==== Sys2Proof/Laws/Access.lean ====
section
/-! SUPPORT. The laws of bounded access, of the registers in memory, and of the layout. -/

namespace Sys2Proof.Machine

/-! ### The layout (spec/20_memory.md R51, R52) -/

theorem memSize_ge (c : Config) : 0x0400 ≤ memSize c := by
  have := c.memSize.property
  unfold memSize
  omega

theorem memSize_le (c : Config) : memSize c ≤ 0x10000 := by
  have := c.memSize.property
  unfold memSize
  omega

theorem displayAddr_toNat (c : Config) : (BitVec.ofNat 16 (displayAddr c)).toNat = displayAddr c := by
  have := memSize_le c
  unfold displayAddr
  rw [BitVec.toNat_ofNat, Nat.mod_eq_of_lt (by omega)]

theorem vAddr_lt (c : Config) (x : Nibble) : vAddr c x < memSize c := by
  have := memSize_ge c
  have := x.isLt
  unfold vAddr varAddr
  omega

theorem varAddr_le_vAddr (c : Config) (x : Nibble) : varAddr c ≤ vAddr c x := Nat.le_add_right ..

theorem vAddr_lt_bankEnd (c : Config) (x : Nibble) : vAddr c x < varAddr c + 16 := by
  have := x.isLt
  unfold vAddr
  omega

@[simp] theorem vAddr_inj (c : Config) (x y : Nibble) : vAddr c x = vAddr c y ↔ x = y := by
  simp [vAddr, BitVec.toNat_inj]

/-- The work area lies inside memory, so phase one's write cannot fault. -/
theorem workArea_inside (c : Config) : workAddr c + 32 ≤ memSize c := by
  have := memSize_ge c
  unfold workAddr
  omega

/-- The random table lies inside memory, so `CXKK`'s read cannot fault (spec/45_random.md R180). -/
theorem rndTable_inside (c : Config) (j : Byte) : rndTableAddr + j.toNat + 1 ≤ memSize c := by
  have := memSize_ge c
  have := j.isLt
  unfold rndTableAddr
  omega

/-! ### Bounded access (R54, R55) -/

theorem checkBounds_ok {a n : Nat} {d : Dir} {s : State} (h : a + n ≤ memSize s.cfg) :
    checkBounds a n d s = .ok () := if_neg (by omega)

theorem checkBounds_error {a n : Nat} {d : Dir} {s : State} (h : memSize s.cfg < a + n) :
    checkBounds a n d s = .error (.memoryBounds a n d) := if_pos h

theorem memRead_ok {a n : Nat} {s : State} (h : a + n ≤ memSize s.cfg) :
    memRead a n s = .ok (s.mem.readBytes a n) := by
  simp [memRead, checkBounds_ok h, bind, Except.bind, pure, Except.pure]

theorem memRead_error {a n : Nat} {s : State} (h : memSize s.cfg < a + n) :
    memRead a n s = .error (.memoryBounds a n .read) := by
  simp [memRead, checkBounds_error h, bind, Except.bind]

theorem memReadWord_ok {a : Nat} {s : State} (h : a + 2 ≤ memSize s.cfg) :
    memReadWord a s = .ok (s.mem.readWord a) := by
  simp [memReadWord, checkBounds_ok h, bind, Except.bind, pure, Except.pure]

theorem memReadWord_error {a : Nat} {s : State} (h : memSize s.cfg < a + 2) :
    memReadWord a s = .error (.memoryBounds a 2 .read) := by
  simp [memReadWord, checkBounds_error h, bind, Except.bind]

theorem memWrite_ok {a : Nat} {bs : List Byte} {s : State} (h : a + bs.length ≤ memSize s.cfg) :
    memWrite a bs s = .ok { s with mem := s.mem.writeBytes a bs } := by
  simp [memWrite, checkBounds_ok h, bind, Except.bind, pure, Except.pure]

theorem memWrite_error {a : Nat} {bs : List Byte} {s : State} (h : memSize s.cfg < a + bs.length) :
    memWrite a bs s = .error (.memoryBounds a bs.length .write) := by
  simp [memWrite, checkBounds_error h, bind, Except.bind]

/-- Everything a bounded write can answer. -/
theorem memWrite_cases (a : Nat) (bs : List Byte) (s : State) :
    (a + bs.length ≤ memSize s.cfg ∧ memWrite a bs s = .ok { s with mem := s.mem.writeBytes a bs }) ∨
    (memSize s.cfg < a + bs.length ∧ memWrite a bs s = .error (.memoryBounds a bs.length .write)) := by
  rcases Nat.lt_or_ge (memSize s.cfg) (a + bs.length) with h | h
  · exact .inr ⟨h, memWrite_error h⟩
  · exact .inl ⟨h, memWrite_ok h⟩

/-- Everything a bounded read can answer. -/
theorem memRead_cases (a n : Nat) (s : State) :
    (a + n ≤ memSize s.cfg ∧ memRead a n s = .ok (s.mem.readBytes a n)) ∨
    (memSize s.cfg < a + n ∧ memRead a n s = .error (.memoryBounds a n .read)) := by
  rcases Nat.lt_or_ge (memSize s.cfg) (a + n) with h | h
  · exact .inr ⟨h, memRead_error h⟩
  · exact .inl ⟨h, memRead_ok h⟩

/-- Everything a bounded word read can answer. -/
theorem memReadWord_cases (a : Nat) (s : State) :
    (a + 2 ≤ memSize s.cfg ∧ memReadWord a s = .ok (s.mem.readWord a)) ∨
    (memSize s.cfg < a + 2 ∧ memReadWord a s = .error (.memoryBounds a 2 .read)) := by
  rcases Nat.lt_or_ge (memSize s.cfg) (a + 2) with h | h
  · exact .inr ⟨h, memReadWord_error h⟩
  · exact .inl ⟨h, memReadWord_ok h⟩

/-! ### Registers in memory (spec/10_state.md R20, R21) -/

@[simp] theorem v_setV (s : State) (x y : Nibble) (b : Byte) :
    (s.setV x b).v y = if y = x then b else s.v y := by
  simp [State.v]

theorem read_setV_outside (s : State) (x : Nibble) (b : Byte) {a : Nat}
    (h : ¬(varAddr s.cfg ≤ a ∧ a < varAddr s.cfg + 16)) : (s.setV x b).mem.read a = s.mem.read a := by
  have h1 := varAddr_le_vAddr s.cfg x
  have h2 := vAddr_lt_bankEnd s.cfg x
  rw [State.setV_mem, Memory.read_write, if_neg]
  rintro rfl
  exact h ⟨h1, h2⟩

/-- A register read depends on memory and the configuration only. -/
theorem v_congr {s t : State} (hm : t.mem = s.mem) (hc : t.cfg = s.cfg) (x : Nibble) : t.v x = s.v x := by
  simp [State.v, hm, hc]

@[simp] theorem v_report (s : State) (c : Nat) (x : Nibble) : (s.report c).v x = s.v x := rfl

@[simp] theorem v_skip (s : State) (x : Nibble) : s.skip.v x = s.v x := rfl

@[simp] theorem v_polled (s : State) (x : Nibble) : s.polled.v x = s.v x := rfl

@[simp] theorem v_soundEdge (s : State) (old new : Byte) (x : Nibble) : (soundEdge old new s).v x = s.v x :=
  v_congr (by simp) (by simp) x

@[simp] theorem v_skipIf (s : State) (c : Bool) (e : Bool → CycEntry) (x : Nibble) :
    (skipIf c e s).v x = s.v x := v_congr (by simp) (by simp) x

/-- The registers after a logic instruction's flag rule (spec/43_arith.md R145, decision D14). -/
theorem v_logicFlag (s : State) (x : Nibble) :
    (logicFlag s).v x = if x = 0xF ∧ s.cfg.logicVf = .reset then 0 else s.v x := by
  unfold logicFlag
  cases h : s.cfg.logicVf <;> simp

theorem read_logicFlag_outside (s : State) {a : Nat}
    (h : ¬(varAddr s.cfg ≤ a ∧ a < varAddr s.cfg + 16)) : (logicFlag s).mem.read a = s.mem.read a := by
  unfold logicFlag
  split
  · rfl
  · exact read_setV_outside s _ _ h

/-- The registers after a result and a flag are written: the flag survives in `VF` (R141). -/
theorem v_setResultFlag (s : State) (x : Nibble) (r : Byte) (f : Bool) (y : Nibble) :
    (setResultFlag x r f s).v y = if y = 0xF then flagByte f else if y = x then r else s.v y := by
  simp [setResultFlag]

theorem read_setResultFlag_outside (s : State) (x : Nibble) (r : Byte) (f : Bool) {a : Nat}
    (h : ¬(varAddr s.cfg ≤ a ∧ a < varAddr s.cfg + 16)) :
    (setResultFlag x r f s).mem.read a = s.mem.read a := by
  rw [setResultFlag, read_setV_outside _ _ _ (by simpa using h), read_setV_outside _ _ _ h]

end Sys2Proof.Machine
end

