-- ==== Sys2Proof/Laws/Encoding.lean ====
section
/-! SUPPORT. The bits of an encoded instruction: where each operand field lands, and that operand bits
and fixed bits do not meet. -/

namespace Sys2Proof

/-! ### Bits of the operand shapes (spec/30_encoding.md R85) -/

theorem getLsbD_addrBits (nnn : Addr12) (i : Nat) :
    ((0 : Nibble) ++ nnn : Word).getLsbD i = if i < 12 then nnn.getLsbD i else false := by
  have h := BitVec.getLsbD_append (x := (0 : Nibble)) (y := nnn) (i := i)
  rw [h]
  simp

theorem getLsbD_byteBits (x : Nibble) (kk : Byte) (i : Nat) :
    ((0 : Nibble) ++ x ++ kk : Word).getLsbD i = if i < 8 then kk.getLsbD i else x.getLsbD (i - 8) := by
  have h := BitVec.getLsbD_append (x := (0 : Nibble) ++ x) (y := kk) (i := i)
  have h2 := BitVec.getLsbD_append (x := (0 : Nibble)) (y := x) (i := i - 8)
  rw [h, h2]
  grind

theorem getLsbD_nibbleBits (x y n : Nibble) (i : Nat) :
    ((0 : Nibble) ++ x ++ y ++ n : Word).getLsbD i =
      if i < 4 then n.getLsbD i else if i < 8 then y.getLsbD (i - 4) else x.getLsbD (i - 8) := by
  have h := BitVec.getLsbD_append (x := (0 : Nibble) ++ x ++ y) (y := n) (i := i)
  have h2 := BitVec.getLsbD_append (x := (0 : Nibble) ++ x) (y := y) (i := i - 4)
  have h3 := BitVec.getLsbD_append (x := (0 : Nibble)) (y := x) (i := i - 4 - 4)
  rw [h, h2, h3]
  grind

/-! ### Operand bits lie outside the mask -/

theorem addrBits_mask (nnn : Addr12) : ((0 : Nibble) ++ nnn : Word) &&& 0xF000 = 0 := by
  apply BitVec.eq_of_getLsbD_eq
  intro i hi
  rw [BitVec.getLsbD_and, getLsbD_addrBits]
  interval_cases i <;> simp

theorem byteBits_mask (x : Nibble) (kk : Byte) : ((0 : Nibble) ++ x ++ kk : Word) &&& 0xF000 = 0 := by
  apply BitVec.eq_of_getLsbD_eq
  intro i hi
  rw [BitVec.getLsbD_and, getLsbD_byteBits]
  interval_cases i <;> simp

theorem keyBits_mask (x : Nibble) : ((0 : Nibble) ++ x ++ (0 : Byte) : Word) &&& 0xF0FF = 0 := by
  apply BitVec.eq_of_getLsbD_eq
  intro i hi
  rw [BitVec.getLsbD_and, getLsbD_byteBits]
  interval_cases i <;> simp

theorem regBits_mask (x y : Nibble) : ((0 : Nibble) ++ x ++ y ++ (0 : Nibble) : Word) &&& 0xF00F = 0 := by
  apply BitVec.eq_of_getLsbD_eq
  intro i hi
  rw [BitVec.getLsbD_and, getLsbD_nibbleBits]
  interval_cases i <;> simp

theorem drawBits_mask (x y n : Nibble) : ((0 : Nibble) ++ x ++ y ++ n : Word) &&& 0xF000 = 0 := by
  apply BitVec.eq_of_getLsbD_eq
  intro i hi
  rw [BitVec.getLsbD_and, getLsbD_nibbleBits]
  interval_cases i <;> simp

/-- A pattern inside its mask, with operand bits outside it, fits the row. -/
theorem fits_of_masks {p b m : Word} (hp : p &&& m = p) (hb : b &&& m = 0) : (p ||| b) &&& m = p := by
  have h : (p ||| b) &&& m = p &&& m ||| b &&& m := by
    ext i hi
    simp [Bool.and_or_distrib_right]
  rw [h, hp, hb]
  simp

/-- Every row's pattern lies inside its mask (R84). -/
theorem pattern_mask (o : Op) : o.pattern &&& o.mask = o.pattern := by
  cases o <;> decide

end Sys2Proof
end

