-- ==== Sys2Proof/Laws/Execute.lean ====
section
/-! SUPPORT. What raising and executing can answer, said once. -/

namespace Sys2Proof.Machine

@[simp] theorem afterFailing_memoryBounds (s : State) (a n : Nat) (d : Dir) :
    s.afterFailing (.memoryBounds a n d) = s := rfl

@[simp] theorem afterFailing_inputFailure (s : State) : s.afterFailing .inputFailure = s.polled := rfl

@[simp] theorem execute_ok {s t : State} {h : State → Except FatalError State}
    (ht : h { s with core := .fetchDecode } = .ok t) : execute s h = .next t := by
  simp [execute, ht]

@[simp] theorem execute_error {s : State} {e : FatalError} {h : State → Except FatalError State}
    (he : h { s with core := .fetchDecode } = .error e) : execute s h = raise e (s.afterFailing e) := by
  simp [execute, he]

/-- A handler that answers next ran to its end. -/
theorem execute_eq_next {s t : State} {h : State → Except FatalError State} :
    execute s h = .next t ↔ h { s with core := .fetchDecode } = .ok t := by
  unfold execute
  split <;> simp_all [raise]

/-- Everything an execute can answer: the handler's state, or its fatal error raised at `s`, with a failing
poll taken. -/
theorem execute_cases (s : State) (h : State → Except FatalError State) :
    (∃ t, h { s with core := .fetchDecode } = .ok t ∧ execute s h = .next t) ∨
    (∃ e, h { s with core := .fetchDecode } = .error e ∧ execute s h = raise e (s.afterFailing e)) := by
  cases hh : h { s with core := .fetchDecode } with
  | ok t => exact .inl ⟨t, rfl, execute_ok hh⟩
  | error e => exact .inr ⟨e, rfl, execute_error hh⟩

/-- An execute that stops stops with its handler's fatal error. -/
theorem execute_eq_fatal {s t : State} {e : FatalError} {h : State → Except FatalError State} :
    execute s h = .fault (.fatal e t) ↔
      h { s with core := .fetchDecode } = .error e ∧ t = { s.afterFailing e with halted := .fatal e } := by
  rcases execute_cases s h with ⟨u, hu, g⟩ | ⟨e', hu, g⟩ <;> rw [g, hu]
  · simp
  · simp only [raise, Host.Outcome.fault.injEq, Fault.fatal.injEq, Except.error.injEq]
    constructor <;> rintro ⟨rfl, rfl⟩ <;> exact ⟨rfl, rfl⟩

/-- Every instruction's meaning is a handler that is executed. -/
theorem exec_is_execute (i : Instr) (s : State) : ∃ h, exec i s = execute s h := by
  cases i
  case drw x y n =>
    simp only [exec, execDrw]
    split <;> exact ⟨_, rfl⟩
  all_goals
    simp only [exec, execCls, execRet, execJp, execCall, execSeVB, execSneVB, execSeVV, execLdVB,
      execAddVB, execLdVV, execOrVV, execAndVV, execXorVV, execAddVV, execSubVV, execShrVV,
      execSubnVV, execShlVV, execSneVV, execLdIA, execJpV0, execRnd, execSkp, execSknp,
      execLdVDT, execLdVK, execLdDTV, execLdSTV, execAddIV, execLdFV, execLdBV, execLdMV,
      execLdVM]
    exact ⟨_, rfl⟩

/-- No instruction is refused. -/
theorem exec_ne_refused (i : Instr) (s : State) (r : Refusal) : exec i s ≠ .refused r := by
  obtain ⟨h, hh⟩ := exec_is_execute i s
  rcases execute_cases s h with ⟨t, -, ht⟩ | ⟨e, -, he⟩ <;> simp_all [raise]

end Sys2Proof.Machine
end

