-- ==== Sys2Proof/Laws/PerInstr.lean ====
section
/-! SUPPORT. Statements about every instruction as syntax, one lemma per constructor. -/

namespace Sys2Proof.Laws.EncodeFitsRow

/-- The word of an instruction fits its own row of spec/30_encoding.md R84: no operand value disturbs a fixed
bit. -/
def Statement (i : Instr) : Prop := encode i &&& i.op.mask = i.op.pattern

theorem cls : Statement .cls := fits_of_masks (pattern_mask .cls) BitVec.zero_and
theorem ret : Statement .ret := fits_of_masks (pattern_mask .ret) BitVec.zero_and
theorem jp (nnn : Addr12) : Statement (.jp nnn) := fits_of_masks (pattern_mask .jp) (addrBits_mask nnn)
theorem call (nnn : Addr12) : Statement (.call nnn) := fits_of_masks (pattern_mask .call) (addrBits_mask nnn)
theorem seVB (x : Nibble) (kk : Byte) : Statement (.seVB x kk) := fits_of_masks (pattern_mask .seVB) (byteBits_mask x kk)
theorem sneVB (x : Nibble) (kk : Byte) : Statement (.sneVB x kk) := fits_of_masks (pattern_mask .sneVB) (byteBits_mask x kk)
theorem seVV (x y : Nibble) : Statement (.seVV x y) := fits_of_masks (pattern_mask .seVV) (regBits_mask x y)
theorem ldVB (x : Nibble) (kk : Byte) : Statement (.ldVB x kk) := fits_of_masks (pattern_mask .ldVB) (byteBits_mask x kk)
theorem addVB (x : Nibble) (kk : Byte) : Statement (.addVB x kk) := fits_of_masks (pattern_mask .addVB) (byteBits_mask x kk)
theorem ldVV (x y : Nibble) : Statement (.ldVV x y) := fits_of_masks (pattern_mask .ldVV) (regBits_mask x y)
theorem orVV (x y : Nibble) : Statement (.orVV x y) := fits_of_masks (pattern_mask .orVV) (regBits_mask x y)
theorem andVV (x y : Nibble) : Statement (.andVV x y) := fits_of_masks (pattern_mask .andVV) (regBits_mask x y)
theorem xorVV (x y : Nibble) : Statement (.xorVV x y) := fits_of_masks (pattern_mask .xorVV) (regBits_mask x y)
theorem addVV (x y : Nibble) : Statement (.addVV x y) := fits_of_masks (pattern_mask .addVV) (regBits_mask x y)
theorem subVV (x y : Nibble) : Statement (.subVV x y) := fits_of_masks (pattern_mask .subVV) (regBits_mask x y)
theorem shrVV (x y : Nibble) : Statement (.shrVV x y) := fits_of_masks (pattern_mask .shrVV) (regBits_mask x y)
theorem subnVV (x y : Nibble) : Statement (.subnVV x y) := fits_of_masks (pattern_mask .subnVV) (regBits_mask x y)
theorem shlVV (x y : Nibble) : Statement (.shlVV x y) := fits_of_masks (pattern_mask .shlVV) (regBits_mask x y)
theorem sneVV (x y : Nibble) : Statement (.sneVV x y) := fits_of_masks (pattern_mask .sneVV) (regBits_mask x y)
theorem ldIA (nnn : Addr12) : Statement (.ldIA nnn) := fits_of_masks (pattern_mask .ldIA) (addrBits_mask nnn)
theorem jpV0 (nnn : Addr12) : Statement (.jpV0 nnn) := fits_of_masks (pattern_mask .jpV0) (addrBits_mask nnn)
theorem rnd (x : Nibble) (kk : Byte) : Statement (.rnd x kk) := fits_of_masks (pattern_mask .rnd) (byteBits_mask x kk)
theorem drw (x y n : Nibble) : Statement (.drw x y n) := fits_of_masks (pattern_mask .drw) (drawBits_mask x y n)
theorem skp (x : Nibble) : Statement (.skp x) := fits_of_masks (pattern_mask .skp) (keyBits_mask x)
theorem sknp (x : Nibble) : Statement (.sknp x) := fits_of_masks (pattern_mask .sknp) (keyBits_mask x)
theorem ldVDT (x : Nibble) : Statement (.ldVDT x) := fits_of_masks (pattern_mask .ldVDT) (keyBits_mask x)
theorem ldVK (x : Nibble) : Statement (.ldVK x) := fits_of_masks (pattern_mask .ldVK) (keyBits_mask x)
theorem ldDTV (x : Nibble) : Statement (.ldDTV x) := fits_of_masks (pattern_mask .ldDTV) (keyBits_mask x)
theorem ldSTV (x : Nibble) : Statement (.ldSTV x) := fits_of_masks (pattern_mask .ldSTV) (keyBits_mask x)
theorem addIV (x : Nibble) : Statement (.addIV x) := fits_of_masks (pattern_mask .addIV) (keyBits_mask x)
theorem ldFV (x : Nibble) : Statement (.ldFV x) := fits_of_masks (pattern_mask .ldFV) (keyBits_mask x)
theorem ldBV (x : Nibble) : Statement (.ldBV x) := fits_of_masks (pattern_mask .ldBV) (keyBits_mask x)
theorem ldMV (x : Nibble) : Statement (.ldMV x) := fits_of_masks (pattern_mask .ldMV) (keyBits_mask x)
theorem ldVM (x : Nibble) : Statement (.ldVM x) := fits_of_masks (pattern_mask .ldVM) (keyBits_mask x)

end Sys2Proof.Laws.EncodeFitsRow
end

