-- ==== Sys2Proof/Laws/Sprite.lean ====
section
/-! SUPPORT. The laws of the sprite engine: the ranges of its position, the work area's bytes, the
framebuffer bytes phase two meets, and what XORing them does. -/

namespace Sys2Proof.Machine

/-! ### Ranges (spec/47_sprite.md R201) -/

theorem spriteY_le (v : Byte) : spriteY v ≤ 31 := by
  revert v; decide

theorem spriteBit_le (v : Byte) : spriteBit v ≤ 7 := by
  revert v; decide

theorem spriteCol_le (v : Byte) : spriteCol v ≤ 7 := by
  revert v; decide

/-! ### The work area (R204) -/

@[simp] theorem workBytes_length (rows : List Byte) (b : Nat) :
    (workBytes rows b).length = 2 * rows.length := by
  induction rows with
  | nil => rfl
  | cons r rows ih =>
    simp only [workBytes, List.flatMap_cons, List.length_append, List.length_cons, List.length_nil] at ih ⊢
    omega

/-- Row `k`'s left byte is the high byte of the shifted row. -/
theorem workBytes_left (rows : List Byte) (b k : Nat) (h : k < rows.length) :
    (workBytes rows b).getD (2 * k) 0 = hiByte (zextByte (rows.getD k 0) <<< (8 - b)) := by
  induction rows generalizing k with
  | nil => simp at h
  | cons r rows ih =>
    cases k with
    | zero => simp [workBytes]
    | succ k =>
      have := ih k (by simpa using h)
      simpa [workBytes, Nat.mul_add] using this

/-- Row `k`'s right byte is the low byte of the shifted row. -/
theorem workBytes_right (rows : List Byte) (b k : Nat) (h : k < rows.length) :
    (workBytes rows b).getD (2 * k + 1) 0 = loByte (zextByte (rows.getD k 0) <<< (8 - b)) := by
  induction rows generalizing k with
  | nil => simp at h
  | cons r rows ih =>
    cases k with
    | zero => simp [workBytes]
    | succ k =>
      have := ih k (by simpa using h)
      simpa [workBytes, Nat.mul_add, Nat.add_assoc] using this

/-! ### The framebuffer bytes of a sprite (R206 to R208) -/

theorem mem_spriteBlits {d y col n : Nat} {work : List Byte} {bl : Nat × Byte} :
    bl ∈ spriteBlits d y col n work ↔
      ∃ k < n, y + k ≤ 31 ∧ (bl = (d + 8 * (y + k) + col, work.getD (2 * k) 0) ∨
        (col < 7 ∧ bl = (d + 8 * (y + k) + col + 1, work.getD (2 * k + 1) 0))) := by
  simp only [spriteBlits, rowOnScreen, List.mem_flatMap, List.mem_range, decide_eq_true_eq]
  constructor
  · rintro ⟨k, hk, h⟩
    refine ⟨k, hk, ?_⟩
    split at h <;> [skip; simp at h]
    split at h <;> simp_all
  · rintro ⟨k, hk, hy, h⟩
    refine ⟨k, hk, ?_⟩
    rw [if_pos hy]
    split <;> simp_all

/-- Every byte phase two meets lies in the framebuffer. -/
theorem spriteBlits_inside {d y col n : Nat} {work : List Byte} {bl : Nat × Byte}
    (hcol : col ≤ 7) (h : bl ∈ spriteBlits d y col n work) : d ≤ bl.1 ∧ bl.1 < d + 256 := by
  obtain ⟨k, -, hy, rfl | ⟨hc, rfl⟩⟩ := mem_spriteBlits.1 h <;> simp only <;> omega

/-- Phase two meets no byte twice. -/
theorem spriteBlits_distinct (d y col n : Nat) (work : List Byte) (hcol : col ≤ 7) :
    (spriteBlits d y col n work).Pairwise fun a b => a.1 ≠ b.1 := by
  unfold spriteBlits
  rw [List.pairwise_flatMap]
  constructor
  · intro k _
    split
    · split <;> simp
    · simp
  · refine List.pairwise_lt_range.imp fun {i j} hij => ?_
    intro a ha b hb
    split at ha <;> [skip; simp at ha]
    split at hb <;> [skip; simp at hb]
    split at ha <;> split at hb <;>
      simp only [List.mem_cons, List.not_mem_nil, or_false] at ha hb <;> grind

/-! ### XORing bytes into memory (R206, R209) -/

/-- Memory after the XORs, in order. -/
def xorAll (blits : List (Nat × Byte)) (m : Memory) : Memory :=
  blits.foldl (fun m bl => m.write bl.1 (m.read bl.1 ^^^ bl.2)) m

/-- The collision flag: some byte's XOR cleared a set pixel. -/
def anyCollision (blits : List (Nat × Byte)) (m : Memory) : Bool :=
  blits.any fun bl => collides (m.read bl.1) bl.2

theorem xorByte_ok {s : State} {c : Bool} {bl : Nat × Byte} (h : bl.1 < memSize s.cfg) :
    xorByte (s, c) bl = .ok ({ s with mem := s.mem.write bl.1 (s.mem.read bl.1 ^^^ bl.2) },
      c || collides (s.mem.read bl.1) bl.2) := by
  have hw : memWrite bl.1 [s.mem.read bl.1 ^^^ bl.2] s =
      .ok { s with mem := s.mem.write bl.1 (s.mem.read bl.1 ^^^ bl.2) } :=
    memWrite_ok (by simpa using h)
  simp [xorByte, checkBounds_ok (show bl.1 + 1 ≤ memSize s.cfg from h), hw, bind, Except.bind, pure, Except.pure]

/-- XORing distinct bytes inside memory: no error, and the flag is about the bytes as they were. -/
theorem foldlM_xorByte {blits : List (Nat × Byte)} {s : State} {c : Bool}
    (hin : ∀ bl ∈ blits, bl.1 < memSize s.cfg) (hd : blits.Pairwise fun a b => a.1 ≠ b.1) :
    blits.foldlM xorByte (s, c) =
      .ok ({ s with mem := xorAll blits s.mem }, c || anyCollision blits s.mem) := by
  induction blits generalizing s c with
  | nil => simp [xorAll, anyCollision, pure, Except.pure]
  | cons bl rest ih =>
    rw [List.foldlM_cons, xorByte_ok (hin bl (by simp))]
    rw [List.pairwise_cons] at hd
    have hin' : ∀ b ∈ rest, b.1 < memSize s.cfg := fun b hb => hin b (by simp [hb])
    have hany : anyCollision rest (s.mem.write bl.1 (s.mem.read bl.1 ^^^ bl.2)) = anyCollision rest s.mem := by
      unfold anyCollision
      rw [Bool.eq_iff_iff]
      simp only [List.any_eq_true]
      refine exists_congr fun b => and_congr_right fun hb => ?_
      rw [Memory.read_write, if_neg (fun e => hd.1 b hb e.symm)]
    simp only [bind, Except.bind]
    rw [ih (s := { s with mem := s.mem.write bl.1 (s.mem.read bl.1 ^^^ bl.2) }) hin' hd.2, hany]
    simp [xorAll, anyCollision, Bool.or_assoc]

/-- A byte no XOR meets is left alone. -/
theorem read_xorAll_of_notMem {blits : List (Nat × Byte)} {m : Memory} {a : Nat}
    (h : ∀ bl ∈ blits, bl.1 ≠ a) : (xorAll blits m).read a = m.read a := by
  induction blits generalizing m with
  | nil => rfl
  | cons bl rest ih =>
    have hne : a ≠ bl.1 := fun e => h bl (by simp) e.symm
    have := ih (m := m.write bl.1 (m.read bl.1 ^^^ bl.2)) fun b hb => h b (by simp [hb])
    simpa [xorAll, hne] using this

/-- A byte that one XOR meets. -/
theorem read_xorAll_of_mem {blits : List (Nat × Byte)} {m : Memory} {bl : Nat × Byte}
    (hd : blits.Pairwise fun a b => a.1 ≠ b.1) (h : bl ∈ blits) :
    (xorAll blits m).read bl.1 = m.read bl.1 ^^^ bl.2 := by
  induction blits generalizing m with
  | nil => simp at h
  | cons b rest ih =>
    rw [List.pairwise_cons] at hd
    change (xorAll rest (m.write b.1 (m.read b.1 ^^^ b.2))).read bl.1 = _
    rcases List.mem_cons.1 h with rfl | h
    · rw [read_xorAll_of_notMem fun c hc e => hd.1 c hc e.symm]
      simp
    · rw [ih hd.2 h, Memory.read_write, if_neg fun e => hd.1 bl h e.symm]

theorem wf_xorAll {blits : List (Nat × Byte)} {m : Memory} (h : m.wf) : (xorAll blits m).wf := by
  induction blits generalizing m with
  | nil => exact h
  | cons b rest ih => exact ih (Memory.wf_write h _ _)

theorem below_xorAll {blits : List (Nat × Byte)} {m : Memory} {n : Nat} (h : m.below n)
    (hin : ∀ bl ∈ blits, bl.1 < n) : (xorAll blits m).below n := by
  induction blits generalizing m with
  | nil => exact h
  | cons b rest ih =>
    exact ih (Memory.below_write h (hin b (by simp)) _) fun c hc => hin c (by simp [hc])

/-- Phase two at a block whose `display_pointer` is `DISPLAY_ADDR`: it raises nothing. -/
theorem drwPhaseTwo_ok (x y n : Nibble) (s : State)
    (hd : s.displayPointer = BitVec.ofNat 16 (displayAddr s.cfg)) :
    drwPhaseTwo x y n s =
      let row := spriteY (s.v y)
      let col := spriteCol (s.v x)
      let blits := spriteBlits (displayAddr s.cfg) row col n.toNat
        (s.mem.readBytes (workAddr s.cfg) (2 * n.toNat))
      .ok (({ s with mem := xorAll blits s.mem }.setV 0xF (flagByte (anyCollision blits s.mem))).report
        (cyc s.cfg (.drw2 n.toNat (rowsDrawn row n.toNat) (rightBytesDrawn row col n.toNat)))) := by
  have hin : ∀ bl ∈ spriteBlits (displayAddr s.cfg) (spriteY (s.v y)) (spriteCol (s.v x)) n.toNat
      (s.mem.readBytes (workAddr s.cfg) (2 * n.toNat)), bl.1 < memSize s.cfg := by
    intro bl hbl
    have h1 := spriteBlits_inside (spriteCol_le _) hbl
    have h2 := memSize_ge s.cfg
    unfold displayAddr at h1
    omega
  have hd' : s.displayPointer.toNat = displayAddr s.cfg := by rw [hd, displayAddr_toNat]
  unfold drwPhaseTwo
  rw [hd']
  simp only [foldlM_xorByte hin (spriteBlits_distinct _ _ _ _ _ (spriteCol_le _)), bind, Except.bind, pure,
    Except.pure, Bool.false_or]

end Sys2Proof.Machine
end

