-- ==== Sys2Proof/Laws/Step.lean ====
section
/-! SUPPORT. Inversion: what an instruction, a call and a step can do, each said once. -/

namespace Sys2Proof.Machine

/-! ### Instructions -/

/-- What every instruction keeps when it answers next: the parameters, the scheduler's data and choices,
the fetched word, and the form of memory. -/
structure Kept (s t : State) : Prop where
  cfg     : t.cfg = s.cfg
  sched   : t.sched = s.sched
  display : t.displayPointer = s.displayPointer
  halted  : t.halted = s.halted
  vx      : t.vx = s.vx
  vy      : t.vy = s.vy
  word    : t.dec.word = s.dec.word
  op      : t.dec.op = s.dec.op
  choices : t.inputs.interrupts = s.inputs.interrupts
  wf      : s.mem.wf → t.mem.wf
  below   : s.displayPointer = BitVec.ofNat 16 (displayAddr s.cfg) →
              s.mem.below (memSize s.cfg) → t.mem.below (memSize s.cfg)

/-- A register write keeps the form of memory. -/
theorem wf_setV {s : State} (h : s.mem.wf) (x : Nibble) (b : Byte) : (s.setV x b).mem.wf :=
  Memory.wf_write h _ _

theorem below_setV {s : State} (h : s.mem.below (memSize s.cfg)) (x : Nibble) (b : Byte) :
    (s.setV x b).mem.below (memSize s.cfg) :=
  Memory.below_write h (vAddr_lt _ _) _

theorem wf_logicFlag {s : State} (h : s.mem.wf) : (logicFlag s).mem.wf := by
  unfold logicFlag
  split
  · exact h
  · exact wf_setV h _ _

theorem below_logicFlag {s : State} (h : s.mem.below (memSize s.cfg)) :
    (logicFlag s).mem.below (memSize s.cfg) := by
  unfold logicFlag
  split
  · exact h
  · exact below_setV h _ _

/-- Everything a poll can answer. -/
theorem poll_cases (s : State) :
    (s.inputs.nextKey = .failure ∧ poll s = .error .inputFailure) ∨
    (s.inputs.nextKey ≠ .failure ∧ poll s = .ok (s.inputs.nextKey, s.polled)) := by
  unfold poll
  cases h : s.inputs.nextKey <;> simp

/-- Everything phase one can answer. -/
theorem drwPhaseOne_cases (x n : Nibble) (s : State) :
    (n ≠ 0 ∧ memSize s.cfg < s.i.toNat + n.toNat ∧
      drwPhaseOne x n s = .error (.memoryBounds s.i.toNat n.toNat .read)) ∨
    ((n = 0 ∨ s.i.toNat + n.toNat ≤ memSize s.cfg) ∧
      drwPhaseOne x n s = .ok ({ s with
        mem := s.mem.writeBytes (workAddr s.cfg)
          (workBytes (s.mem.readBytes s.i.toNat n.toNat) (spriteBit (s.v x)))
        dec := { s.dec with phase := .two }
        core := .waitInterrupt }.report (cyc s.cfg (.drw1 n.toNat (spriteBit (s.v x)))))) := by
  unfold drwPhaseOne
  by_cases hn : n = 0
  · subst hn
    exact .inr ⟨.inl rfl, rfl⟩
  · rcases memRead_cases s.i.toNat n.toNat s with ⟨h, hr⟩ | ⟨h, hr⟩
    · exact .inr ⟨.inr h, by rw [if_neg hn, hr]; rfl⟩
    · exact .inl ⟨hn, h, by rw [if_neg hn, hr]; rfl⟩

/-- A blit past memory faults on its read. -/
theorem xorByte_error {s : State} {c : Bool} {bl : Nat × Byte} (h : memSize s.cfg ≤ bl.1) :
    xorByte (s, c) bl = .error (.memoryBounds bl.1 1 .read) := by
  simp [xorByte, checkBounds_error (show memSize s.cfg < bl.1 + 1 by omega), bind, Except.bind]

/-- Phase two under any display pointer: if it answers, only memory and the cost have changed. -/
theorem foldlM_xorByte_shape {blits : List (Nat × Byte)} {s t : State} {c d : Bool}
    (h : blits.foldlM xorByte (s, c) = .ok (t, d)) :
    ∃ m, t = { s with mem := m } ∧ (s.mem.wf → m.wf) ∧
      (s.mem.below (memSize s.cfg) → m.below (memSize s.cfg)) := by
  induction blits generalizing s c with
  | nil =>
    simp only [List.foldlM_nil, pure, Except.pure, Except.ok.injEq, Prod.mk.injEq] at h
    exact ⟨s.mem, by rw [← h.1], id, id⟩
  | cons bl rest ih =>
    rw [List.foldlM_cons] at h
    rcases Nat.lt_or_ge bl.1 (memSize s.cfg) with hb | hb
    · rw [xorByte_ok hb] at h
      obtain ⟨m, rfl, hw, hbel⟩ := ih h
      exact ⟨m, rfl, fun w => hw (Memory.wf_write w _ _), fun w => hbel (Memory.below_write w hb _)⟩
    · rw [xorByte_error hb] at h
      cases h

/-- A handler's answer read off: `.ok` to a next state. -/
theorem ok_bind {α β : Type} {x : Except FatalError α} {f : α → Except FatalError β} {b : β} :
    (x >>= f) = .ok b ↔ ∃ a, x = .ok a ∧ f a = .ok b := by
  cases x <;> simp [bind, Except.bind]

theorem ok_return {α : Type} {a b : α} : (return a : Except FatalError α) = .ok b ↔ a = b := by
  simp [pure, Except.pure]

theorem memWrite_eq_ok {a : Nat} {bs : List Byte} {s t : State} :
    memWrite a bs s = .ok t ↔ a + bs.length ≤ memSize s.cfg ∧ t = { s with mem := s.mem.writeBytes a bs } := by
  rcases memWrite_cases a bs s with ⟨h, e⟩ | ⟨h, e⟩ <;> rw [e] <;> simp <;> grind

theorem memRead_eq_ok {a n : Nat} {s : State} {bs : List Byte} :
    memRead a n s = .ok bs ↔ a + n ≤ memSize s.cfg ∧ bs = s.mem.readBytes a n := by
  rcases memRead_cases a n s with ⟨h, e⟩ | ⟨h, e⟩ <;> rw [e] <;> simp <;> grind

theorem memReadWord_eq_ok {a : Nat} {s : State} {w : Word} :
    memReadWord a s = .ok w ↔ a + 2 ≤ memSize s.cfg ∧ w = s.mem.readWord a := by
  rcases memReadWord_cases a s with ⟨h, e⟩ | ⟨h, e⟩ <;> rw [e] <;> simp <;> grind

theorem poll_eq_ok {s t : State} {a : KeyAnswer} :
    poll s = .ok (a, t) ↔ s.inputs.nextKey ≠ .failure ∧ a = s.inputs.nextKey ∧ t = s.polled := by
  rcases poll_cases s with ⟨h, e⟩ | ⟨h, e⟩ <;> rw [e] <;> simp <;> grind

/-- What an instruction keeps when it answers next. -/
theorem exec_keeps {i : Instr} {s t : State} (h : exec i s = .next t) : Kept s t := by
  cases i
  case drw x y n =>
    simp only [exec, execDrw] at h
    split at h
    · rw [execute_eq_next] at h
      rcases drwPhaseOne_cases x n { s with core := .fetchDecode } with ⟨-, -, e⟩ | ⟨-, e⟩
      · rw [e] at h; cases h
      · rw [e, Except.ok.injEq] at h
        subst h
        refine ⟨rfl, rfl, rfl, rfl, rfl, rfl, rfl, rfl, rfl, fun w => Memory.wf_writeBytes w _ _, fun _ b => ?_⟩
        refine Memory.below_writeBytes b _ ?_
        have := workArea_inside s.cfg
        have := n.isLt
        simp only [workBytes_length, Memory.readBytes_length]
        omega
    · rw [execute_eq_next] at h
      simp only [drwPhaseTwo, ok_bind, ok_return, Prod.exists] at h
      obtain ⟨u, c, hf, rfl⟩ := h
      obtain ⟨m, rfl, hw, hb⟩ := foldlM_xorByte_shape hf
      exact ⟨rfl, rfl, rfl, rfl, rfl, rfl, rfl, rfl, rfl, fun w => wf_setV (hw w) _ _,
        fun _ b => below_setV (s := { s with mem := m }) (hb b) _ _⟩
  all_goals
    simp only [exec, execCls, execRet, execJp, execCall, execSeVB, execSneVB, execSeVV, execLdVB, execAddVB,
      execLdVV, execOrVV, execAndVV, execXorVV, execAddVV, execSubVV, execShrVV, execSubnVV, execShlVV,
      execSneVV, execLdIA, execJpV0, execRnd, execSkp, execSknp, execLdVDT, execLdVK, execLdDTV, execLdSTV,
      execAddIV, execLdFV, execLdBV, execLdMV, execLdVM, execute_eq_next, ok_bind, ok_return, memWrite_eq_ok,
      memRead_eq_ok, memReadWord_eq_ok, poll_eq_ok, Prod.exists] at h
  case ldVK x =>
    obtain ⟨a, u, ⟨-, -, rfl⟩, h⟩ := h
    split at h <;> (rw [ok_return] at h; subst h)
    · exact ⟨rfl, rfl, rfl, rfl, rfl, rfl, rfl, rfl, by simp, fun w => wf_setV w _ _,
        fun _ b => below_setV (s := State.polled _) b _ _⟩
    · exact ⟨rfl, rfl, rfl, rfl, rfl, rfl, rfl, rfl, by simp, id, fun _ b => b⟩
  all_goals
    first
      | subst h
      | obtain ⟨_, ⟨hb, rfl⟩, rfl⟩ := h
      | obtain ⟨_, _, ⟨-, -, rfl⟩, rfl⟩ := h
    refine ⟨by simp, by simp, by simp, by simp, by simp, by simp, by simp, by simp, by simp,
      fun w => ?_, fun d b => ?_⟩
  case ldVM.refine_2 x =>
    refine Memory.below_writeBytes b _ ?_
    have := memSize_ge s.cfg
    have := x.isLt
    simp only [Memory.readBytes_length]
    unfold varAddr
    omega
  all_goals try simp only [State.report_mem, skipIf_mem, soundEdge_mem, State.polled_mem]
  all_goals
    first
      | with_reducible exact w
      | with_reducible exact b
      | with_reducible exact Memory.wf_writeBytes w _ _
      | with_reducible exact Memory.below_writeBytes b _ hb
      | exact wf_setV w _ _
      | exact wf_setV (wf_setV w _ _) _ _
      | exact wf_logicFlag (wf_setV w _ _)
      | exact below_setV (s := { s with core := .fetchDecode }) b _ _
      | exact below_setV (s := State.setV _ _ _) (below_setV (s := { s with core := .fetchDecode }) b _ _) _ _
      | exact below_logicFlag (s := State.setV _ _ _) (below_setV (s := { s with core := .fetchDecode }) b _ _)

/-! ### What an instruction may raise (spec/60_exceptions.md R230) -/

/-- A handler's answer read off: `.error`. -/
theorem error_bind {α β : Type} {x : Except FatalError α} {f : α → Except FatalError β} {e : FatalError} :
    (x >>= f) = .error e ↔ x = .error e ∨ ∃ a, x = .ok a ∧ f a = .error e := by
  cases x <;> simp [bind, Except.bind]

theorem return_ne_error {α : Type} {a : α} {e : FatalError} : (return a : Except FatalError α) ≠ .error e :=
  nofun

/-- The error of a handler: a failing poll, or an access past memory. -/
def HandlerError (e : FatalError) : Prop := e = .inputFailure ∨ ∃ a n d, e = .memoryBounds a n d

theorem memWrite_raises {a : Nat} {bs : List Byte} {s : State} {e : FatalError}
    (h : memWrite a bs s = .error e) : HandlerError e := by
  rcases memWrite_cases a bs s with ⟨-, g⟩ | ⟨-, g⟩ <;> rw [g] at h <;> cases h
  exact .inr ⟨_, _, _, rfl⟩

theorem memRead_raises {a n : Nat} {s : State} {e : FatalError} (h : memRead a n s = .error e) :
    HandlerError e := by
  rcases memRead_cases a n s with ⟨-, g⟩ | ⟨-, g⟩ <;> rw [g] at h <;> cases h
  exact .inr ⟨_, _, _, rfl⟩

theorem memReadWord_raises {a : Nat} {s : State} {e : FatalError} (h : memReadWord a s = .error e) :
    HandlerError e := by
  rcases memReadWord_cases a s with ⟨-, g⟩ | ⟨-, g⟩ <;> rw [g] at h <;> cases h
  exact .inr ⟨_, _, _, rfl⟩

theorem poll_raises {s : State} {e : FatalError} (h : poll s = .error e) : HandlerError e := by
  rcases poll_cases s with ⟨-, g⟩ | ⟨-, g⟩ <;> rw [g] at h <;> cases h
  exact .inl rfl

theorem drwPhaseOne_raises {x n : Nibble} {s : State} {e : FatalError} (h : drwPhaseOne x n s = .error e) :
    HandlerError e := by
  rcases drwPhaseOne_cases x n s with ⟨-, -, g⟩ | ⟨-, g⟩ <;> rw [g] at h <;> cases h
  exact .inr ⟨_, _, _, rfl⟩

theorem foldlM_xorByte_raises {blits : List (Nat × Byte)} {s : State} {c : Bool} {e : FatalError}
    (h : blits.foldlM xorByte (s, c) = .error e) : HandlerError e := by
  induction blits generalizing s c with
  | nil => cases h
  | cons bl rest ih =>
    rw [List.foldlM_cons] at h
    rcases Nat.lt_or_ge bl.1 (memSize s.cfg) with hb | hb
    · rw [xorByte_ok hb] at h
      exact ih h
    · rw [xorByte_error hb] at h
      cases h
      exact .inr ⟨_, _, _, rfl⟩

theorem drwPhaseTwo_raises {x y n : Nibble} {s : State} {e : FatalError} (h : drwPhaseTwo x y n s = .error e) :
    HandlerError e := by
  simp only [drwPhaseTwo, error_bind, return_ne_error, and_false, exists_false, or_false] at h
  exact foldlM_xorByte_raises h

/-- Every fatal error an instruction raises, and the state it leaves. -/
theorem exec_fatal {i : Instr} {s t : State} {e : FatalError} (h : exec i s = .fault (.fatal e t)) :
    (e = .inputFailure ∧ t = { s.polled with halted := .fatal .inputFailure }) ∨
    (∃ a n d, e = .memoryBounds a n d) ∧ t = { s with halted := .fatal e } := by
  have key : ∀ {f}, execute s f = .fault (.fatal e t) →
      (f { s with core := .fetchDecode } = .error e → HandlerError e) →
      (e = .inputFailure ∧ t = { s.polled with halted := .fatal .inputFailure }) ∨
      (∃ a n d, e = .memoryBounds a n d) ∧ t = { s with halted := .fatal e } := by
    intro f h hf
    obtain ⟨he, rfl⟩ := execute_eq_fatal.1 h
    rcases hf he with rfl | ⟨a, n, d, rfl⟩
    · exact .inl ⟨rfl, rfl⟩
    · exact .inr ⟨⟨a, n, d, rfl⟩, rfl⟩
  cases i
  case drw x y n =>
    simp only [exec, execDrw] at h
    split at h
    · exact key h drwPhaseOne_raises
    · exact key h drwPhaseTwo_raises
  all_goals
    simp only [exec, execCls, execRet, execJp, execCall, execSeVB, execSneVB, execSeVV, execLdVB, execAddVB,
      execLdVV, execOrVV, execAndVV, execXorVV, execAddVV, execSubVV, execShrVV, execSubnVV, execShlVV,
      execSneVV, execLdIA, execJpV0, execRnd, execSkp, execSknp, execLdVDT, execLdVK, execLdDTV, execLdSTV,
      execAddIV, execLdFV, execLdBV, execLdMV, execLdVM] at h
    refine key h fun h' => ?_
    simp only [error_bind, return_ne_error, and_false, exists_false, or_false, Prod.exists] at h'
  case ldVK =>
    rcases h' with h' | ⟨a, u, -, h'⟩
    · exact poll_raises h'
    · split at h' <;> exact absurd h' return_ne_error
  all_goals
    first
      | with_reducible exact poll_raises h'
      | with_reducible exact memRead_raises h'
      | with_reducible exact memReadWord_raises h'
      | with_reducible exact memWrite_raises h'

/-! ### Calls -/

/-- Everything a fetch can answer (spec/40_core_cycle.md R101). -/
theorem fetchDecode_cases (s : State) :
    (memSize s.cfg < s.pc.toNat + 2 ∧ fetchDecode s = raise (.memoryBounds s.pc.toNat 2 .read) s) ∨
    (s.pc.toNat + 2 ≤ memSize s.cfg ∧ ∃ w, w = s.mem.readWord s.pc.toNat ∧
      ((decodeOp s.cfg.fx0aMode w = none ∧
          fetchDecode s = raise (.unknownOpcode w s.pc) { s with vx := fieldX w, vy := fieldY w }) ∨
       (∃ o, decodeOp s.cfg.fx0aMode w = some o ∧
          fetchDecode s = .next ({ s with
            vx := fieldX w, vy := fieldY w
            dec := { word := w, op := some o, phase := .one }
            pc := s.pc + 2
            core := .execute }.report (cyc s.cfg (fetchEntry w)))))) := by
  rcases memReadWord_cases s.pc.toNat s with ⟨h, e⟩ | ⟨h, e⟩
  · refine .inr ⟨h, _, rfl, ?_⟩
    cases hd : decodeOp s.cfg.fx0aMode (s.mem.readWord s.pc.toNat) with
    | none => exact .inl ⟨rfl, by simp only [fetchDecode, e, hd]⟩
    | some o => exact .inr ⟨o, rfl, by simp only [fetchDecode, e, hd]⟩
  · exact .inl ⟨h, by simp only [fetchDecode, e]⟩

/-- Everything the general timer's tick can do (spec/60_exceptions.md R239). -/
theorem tickGeneral_cases (s : State) :
    (s.generalTimer = 0 ∧ tickGeneral s = s) ∨
    (s.generalTimer ≠ 0 ∧ tickGeneral s =
      { s with generalTimer := s.generalTimer - 1, cost := s.cost + cyc s.cfg .intGt }) := by
  unfold tickGeneral
  by_cases h : s.generalTimer = 0
  · exact .inl ⟨h, if_neg (not_not.2 h)⟩
  · exact .inr ⟨h, if_pos h⟩

/-- Everything the tone timer's tick can do (R239). -/
theorem tickTone_cases (s : State) :
    (s.toneTimer = 0 ∧ tickTone s = s) ∨
    (s.toneTimer ≠ 0 ∧ tickTone s = soundEdge s.toneTimer (s.toneTimer - 1)
      { s with toneTimer := s.toneTimer - 1, cost := s.cost + cyc s.cfg .intTt }) := by
  unfold tickTone
  by_cases h : s.toneTimer = 0
  · exact .inl ⟨h, if_neg (not_not.2 h)⟩
  · exact .inr ⟨h, if_pos h⟩

/-- A nonzero byte minus 1 does not wrap. -/
theorem toNat_pred {b : Byte} (h : b ≠ 0) : (b - 1).toNat = b.toNat - 1 := by
  have h0 : b.toNat ≠ 0 := fun e => h (BitVec.eq_of_toNat_eq e)
  have := b.isLt
  rw [BitVec.toNat_sub, show (1 : Byte).toNat = 1 from rfl]
  omega

/-- The general timer counts down and stops at 0 (R239). -/
@[simp] theorem tickGeneral_generalTimer (s : State) :
    (tickGeneral s).generalTimer.toNat = s.generalTimer.toNat - 1 := by
  rcases tickGeneral_cases s with ⟨h, e⟩ | ⟨h, e⟩ <;> rw [e]
  · rw [h]; rfl
  · exact toNat_pred h

@[simp] theorem tickGeneral_cost (s : State) :
    (tickGeneral s).cost = s.cost + if s.generalTimer = 0 then 0 else cyc s.cfg .intGt := by
  rcases tickGeneral_cases s with ⟨h, e⟩ | ⟨h, e⟩ <;> rw [e]
  · rw [if_pos h]; rfl
  · rw [if_neg h]

/-- The tone timer counts down and stops at 0 (R239). -/
@[simp] theorem tickTone_toneTimer (s : State) :
    (tickTone s).toneTimer.toNat = s.toneTimer.toNat - 1 := by
  rcases tickTone_cases s with ⟨h, e⟩ | ⟨h, e⟩ <;> rw [e]
  · rw [h]; rfl
  · rw [soundEdge_toneTimer]; exact toNat_pred h

@[simp] theorem tickTone_cost (s : State) :
    (tickTone s).cost = s.cost + if s.toneTimer = 0 then 0 else cyc s.cfg .intTt := by
  rcases tickTone_cases s with ⟨h, e⟩ | ⟨h, e⟩ <;> rw [e]
  · rw [if_pos h]; rfl
  · rw [soundEdge_cost, if_neg h]

/-- Everything an interrupt can answer (R236). -/
theorem interrupt_cases (s : State) :
    (memSize s.cfg < s.displayPointer.toNat + displaySize ∧
      interrupt s = raise (.memoryBounds s.displayPointer.toNat displaySize .read) s) ∨
    (s.displayPointer.toNat + displaySize ≤ memSize s.cfg ∧
      ((s.inputs.nextDraw = .failure ∧ interrupt s =
          raise .displayFailure (s.drawn (s.mem.readBytes s.displayPointer.toNat displaySize))) ∨
       (s.inputs.nextDraw = .ok ∧ interrupt s = .next (resumeDraw (tickTone (tickGeneral
          ({ s.drawn (s.mem.readBytes s.displayPointer.toNat displaySize) with
            seed := s.seed + 1 }.report (cyc s.cfg .intBase)))))))) := by
  unfold interrupt
  rcases memRead_cases s.displayPointer.toNat displaySize s with ⟨h, e⟩ | ⟨h, e⟩
  · refine .inr ⟨h, ?_⟩
    rw [e]
    cases hd : s.inputs.nextDraw
    · exact .inr ⟨rfl, rfl⟩
    · exact .inl ⟨rfl, rfl⟩
  · exact .inl ⟨h, by rw [e]⟩

/-- What an interrupt leaves alone (spec/60_exceptions.md R245), and its one transition (R240). -/
structure Serviced (s t : State) : Prop where
  mem     : t.mem = s.mem
  pc      : t.pc = s.pc
  i       : t.i = s.i
  sp      : t.sp = s.sp
  display : t.displayPointer = s.displayPointer
  dec     : t.dec = s.dec
  vx      : t.vx = s.vx
  vy      : t.vy = s.vy
  halted  : t.halted = s.halted
  cfg     : t.cfg = s.cfg
  sched   : t.sched = s.sched
  choices : t.inputs.interrupts = s.inputs.interrupts
  core    : t.core = if s.core = .waitInterrupt then .execute else s.core

theorem interrupt_serviced {s t : State} (h : interrupt s = .next t) : Serviced s t := by
  unfold interrupt at h
  split at h
  · simp [raise] at h
  · split at h
    · simp [raise] at h
    · rw [Host.Outcome.next.injEq] at h
      subst h
      constructor <;> simp

/-- A call of `cycle()` that answers next: which of its three kinds it was. -/
theorem cycle_next {s t : State} (h : cycle s = .next t) :
    (s.core = .fetchDecode ∧ fetchDecode s = .next t) ∨
    (s.core = .execute ∧ ∃ i, s.latched = some i ∧ exec i s = .next t) ∨
    (s.core = .waitInterrupt ∧ t = s.report (cyc s.cfg .wait)) := by
  unfold cycle at h
  split at h
  · exact .inl ⟨by assumption, h⟩
  · refine .inr (.inl ⟨by assumption, ?_⟩)
    unfold executeLatched at h
    split at h
    · exact ⟨_, by assumption, h⟩
    · cases h
  · simp only [waitCycle, Host.Outcome.next.injEq] at h
    exact .inr (.inr ⟨by assumption, h.symm⟩)

/-! ### Steps -/

theorem account_next {after : State → State} {r : Result} {t : State} :
    account after r = .next t ↔ ∃ u, r = .next u ∧ t = after u := by
  cases r <;> simp [account, eq_comm]

/-- A step that answers next: the block runs, and the step was one call of the scheduler. -/
theorem step_next {s t : State} (h : step s = .next t) :
    s.halted = .running ∧
    ((nextCall s = .interrupt ∧ ∃ u, interrupt s = .next u ∧ t = afterInterrupt s u) ∨
     (nextCall s = .cycle ∧ ∃ u, cycle s = .next u ∧ t = afterCycle s u)) := by
  unfold step at h
  split at h
  · refine ⟨by assumption, ?_⟩
    unfold schedule at h
    split at h
    · exact .inl ⟨by assumption, account_next.1 h⟩
    · exact .inr ⟨by assumption, account_next.1 h⟩
    · cases h
  · cases h

/-- The scheduler's bookkeeping touches its own data and inputs only. -/
theorem afterCycle_shape (s t : State) :
    ∃ q i, afterCycle s t = { t with sched := q, inputs := i } := by
  unfold afterCycle
  split
  · exact ⟨_, t.inputs, rfl⟩
  · exact ⟨t.sched, _, rfl⟩

theorem afterInterrupt_shape (s t : State) :
    ∃ q i, afterInterrupt s t = { t with sched := q, inputs := i } := by
  unfold afterInterrupt
  split
  · exact ⟨_, t.inputs, rfl⟩
  · exact ⟨t.sched, _, rfl⟩

end Sys2Proof.Machine
end

