-- ==== Sys2Proof/Tests/Slice0.lean ====
section
/-! SUPPORT. Tests. Expected results are the spec's own: the words of spec/30_encoding.md R84, and the
vectors of spec/95_test_vectors.md by their ids. The `witness_` theorems show a concrete case that
meets the hypotheses of the obligation they name. -/

namespace Sys2Proof.Tests

open Sys2Proof.Machine

/-! ### Small states -/

/-- The test configuration of spec/95_test_vectors.md section 0. -/
def cfg : Config := { referenceConfig with rndFn := .reference }

/-- A constructed block before a fetch. -/
def fresh : State := { State.reset with cfg := cfg, sched := { t := 0, frames := 1 } }

/-- The block after the fetch of an instruction at 0x0200 (`phase` one). -/
def fetched (o : Op) (w : Word) : State :=
  { fresh with pc := 0x0202, core := .execute, vx := fieldX w, vy := fieldY w
               dec := { word := w, op := some o, phase := .one } }

/-- The block about to execute. -/
def base : State := { fresh with pc := 0x0202, core := .execute }

/-- The block with these registers. -/
def regs (vs : List (Nibble × Byte)) (s : State) : State := vs.foldl (fun t p => t.setV p.1 p.2) s

/-- The block with these bytes from an address on. -/
def bytes (a : Nat) (bs : List Byte) (s : State) : State := { s with mem := s.mem.writeBytes a bs }

/-- The block with a sprite between its phases. -/
def phaseTwo (s : State) : State := { s with dec := { word := 0xD011, op := some .drw, phase := .two } }

/-- The next state, where there is one. -/
def next : Result → Option State
  | .next t => some t
  | _ => none

/-- The fatal error, where there is one. -/
def error : Result → Option FatalError
  | .fault (.fatal e _) => some e
  | _ => none

/-- The state a fatal error leaves. -/
def final : Result → Option State
  | .fault (.fatal _ t) => some t
  | _ => none

/-- Registers of the next state. -/
def vs (rs : List Nibble) (r : Result) : Option (List Byte) := (next r).map fun t => rs.map t.v

/-- Bytes of the next state. -/
def mem (as : List Nat) (r : Result) : Option (List Byte) := (next r).map fun t => as.map t.mem.read

/-! ### WellFormed smoke: the one check, and a term it refuses -/

theorem test_fatal_mode_has_no_FX0A : Instr.wellFormed .fatal (.ldVK 3) = false := by decide

theorem test_retry_mode_has_FX0A : Instr.wellFormed .retry (.ldVK 3) = true := by decide

/-! ### Decoding: every constructor from a word written out by R84 -/

theorem test_decode_control :
    decodeTableWord 16 0x00E0 = some .cls ∧ decodeTableWord 16 0x00EE = some .ret ∧
    decodeTableWord 16 0x1ABC = some (.jp 0xABC) ∧ decodeTableWord 16 0x2ABC = some (.call 0xABC) := by decide

theorem test_decode_skip :
    decodeTableWord 16 0x3ABC = some (.seVB 0xA 0xBC) ∧ decodeTableWord 16 0x4ABC = some (.sneVB 0xA 0xBC) ∧
    decodeTableWord 16 0x5AB0 = some (.seVV 0xA 0xB) ∧ decodeTableWord 16 0x9AB0 = some (.sneVV 0xA 0xB) := by
  decide

theorem test_decode_arith :
    decodeTableWord 16 0x6ABC = some (.ldVB 0xA 0xBC) ∧ decodeTableWord 16 0x7ABC = some (.addVB 0xA 0xBC) ∧
    decodeTableWord 16 0x8AB0 = some (.ldVV 0xA 0xB) ∧ decodeTableWord 16 0x8AB1 = some (.orVV 0xA 0xB) ∧
    decodeTableWord 16 0x8AB2 = some (.andVV 0xA 0xB) ∧ decodeTableWord 16 0x8AB3 = some (.xorVV 0xA 0xB) ∧
    decodeTableWord 16 0x8AB4 = some (.addVV 0xA 0xB) ∧ decodeTableWord 16 0x8AB5 = some (.subVV 0xA 0xB) ∧
    decodeTableWord 16 0x8AB6 = some (.shrVV 0xA 0xB) ∧ decodeTableWord 16 0x8AB7 = some (.subnVV 0xA 0xB) ∧
    decodeTableWord 16 0x8ABE = some (.shlVV 0xA 0xB) := by decide

theorem test_decode_memory_index :
    decodeTableWord 16 0xAABC = some (.ldIA 0xABC) ∧ decodeTableWord 16 0xBABC = some (.jpV0 0xABC) ∧
    decodeTableWord 16 0xFA1E = some (.addIV 0xA) ∧ decodeTableWord 16 0xFA29 = some (.ldFV 0xA) ∧
    decodeTableWord 16 0xFA33 = some (.ldBV 0xA) ∧ decodeTableWord 16 0xFA55 = some (.ldMV 0xA) ∧
    decodeTableWord 16 0xFA65 = some (.ldVM 0xA) := by decide

theorem test_decode_random_key_sprite_timer :
    decodeTableWord 16 0xCABC = some (.rnd 0xA 0xBC) ∧ decodeTableWord 16 0xDABC = some (.drw 0xA 0xB 0xC) ∧
    decodeTableWord 16 0xEA9E = some (.skp 0xA) ∧ decodeTableWord 16 0xEAA1 = some (.sknp 0xA) ∧
    decodeTableWord 16 0xFA07 = some (.ldVDT 0xA) ∧ decodeTableWord 16 0xFA0A = some (.ldVK 0xA) ∧
    decodeTableWord 16 0xFA15 = some (.ldDTV 0xA) ∧ decodeTableWord 16 0xFA18 = some (.ldSTV 0xA) := by decide

/-- FD-1 to FD-3. -/
theorem test_decode_illegal :
    decodeTableWord 16 0x0123 = none ∧ decodeTableWord 16 0x5121 = none ∧ decodeTableWord 16 0x8008 = none ∧
    decodeTableWord 16 0xE000 = none ∧ decodeTableWord 16 0xF000 = none ∧ decodeTableWord 16 0xF0FF = none := by
  decide

/-- FD-4. -/
theorem test_decode_fatal_mode : decodeOp .fatal 0xF30A = none := by decide

theorem test_encode :
    encode .cls = 0x00E0 ∧ encode (.call 0xABC) = 0x2ABC ∧ encode (.sneVB 0xA 0xBC) = 0x4ABC ∧
    encode (.shlVV 0xA 0xB) = 0x8ABE ∧ encode (.drw 0xA 0xB 0xC) = 0xDABC ∧ encode (.ldVM 0xA) = 0xFA65 := by
  decide

/-! ### Fetch (section 2) -/

/-- S1, S2. -/
theorem test_fetch_1234 :
    (next (cycle (bytes 0x200 [0x12, 0x34] fresh))).map (fun t => (t.pc, t.core, t.cost)) =
      some (0x0202, .execute, 68) ∧
    (next (cycle (bytes 0x200 [0x12, 0x34] fresh))).map (fun t => (t.dec.op, t.vx, t.vy)) =
      some (some .jp, 2, 3) := by decide

/-- FD-7. -/
theorem test_fetch_00E0 :
    (next (cycle (bytes 0x200 [0x00, 0xE0] fresh))).map (fun t => (t.core, t.cost)) = some (.execute, 40) := by
  decide

/-- FD-1. -/
theorem test_fetch_illegal :
    cycle (bytes 0x200 [0x01, 0x23] fresh) = .fault (.fatal (.unknownOpcode 0x0123 0x0200)
      { bytes 0x200 [0x01, 0x23] fresh with vx := 1, vy := 2, halted := .fatal (.unknownOpcode 0x0123 0x0200) }) := by
  rfl

/-- FD-6. -/
theorem test_fetch_past_memory :
    error (cycle { fresh with pc := 0x0FFF }) = some (.memoryBounds 0x0FFF 2 .read) := by decide

/-! ### Control (section 3) -/

/-- CT-1. -/
theorem test_cls :
    mem [0xEFF, 0xF00, 0xF10, 0xFFF] (exec .cls (bytes 0xEFF [7, 1] (bytes 0xF10 [0xFF] base))) =
      some [7, 0, 0, 0] := by decide +kernel

/-- CT-2. -/
theorem test_ret :
    (next (exec .ret (bytes 0xED0 [0x02, 0x40] base))).map (fun t => (t.pc, t.sp)) = some (0x0240, 0x0ED0) := by
  decide

/-- CT-3. -/
theorem test_ret_faults :
    error (exec .ret { base with sp := 0x0FFE }) = some (.memoryBounds 0x1000 2 .read) := by decide

/-- S3. -/
theorem test_jp : (next (exec (.jp 0x234) base)).map (fun t => (t.pc, t.cost)) = some (0x0234, 12) := by decide

/-- S4. -/
theorem test_call :
    (next (exec (.call 0x345) base)).map (fun t => (t.pc, t.sp, t.cost, t.mem)) =
      some (0x0345, 0x0ECC, 26, [(0xECE, 0x02), (0xECF, 0x02)]) := by decide

/-- CT-5. -/
theorem test_call_faults :
    error (exec (.call 0x300) { base with sp := 0x0FFF }) = some (.memoryBounds 0x0FFF 2 .write) := by decide

/-! ### Skips (section 4) -/

/-- SK-1, SK-2. -/
theorem test_seVB :
    (next (exec (.seVB 3 5) (regs [(3, 5)] base))).map (·.pc) = some 0x0204 ∧
    (next (exec (.seVB 3 5) (regs [(3, 4)] base))).map (·.pc) = some 0x0202 := by decide

/-- SK-3, SK-4. -/
theorem test_sneVB :
    (next (exec (.sneVB 3 5) (regs [(3, 5)] base))).map (·.pc) = some 0x0202 ∧
    (next (exec (.sneVB 3 5) (regs [(3, 6)] base))).map (·.pc) = some 0x0204 := by decide

/-- SK-5. -/
theorem test_seVV :
    (next (exec (.seVV 1 2) (regs [(1, 0x80), (2, 0x80)] base))).map (·.pc) = some 0x0204 := by decide

/-- SK-6. -/
theorem test_sneVV :
    (next (exec (.sneVV 1 2) (regs [(1, 0x80), (2, 0x81)] base))).map (·.pc) = some 0x0204 := by decide

/-- SK-8: a skip wraps at 16 bits. -/
theorem test_skip_wraps :
    (next (exec (.seVB 3 5) (regs [(3, 5)] { base with
      pc := 0xFFFE, cfg := { cfg with memSize := ⟨0x10000, by decide⟩ } }))).map (·.pc) = some 0x0000 := by decide

/-! ### Arithmetic (sections 1 and 5) -/

/-- AR-1. -/
theorem test_ldVB : vs [0xA] (exec (.ldVB 0xA 0x42) base) = some [0x42] := by decide

/-- AR-2. -/
theorem test_addVB : vs [1, 0xF] (exec (.addVB 1 3) (regs [(1, 0xFE), (0xF, 7)] base)) = some [1, 7] := by decide

/-- AR-3. -/
theorem test_ldVV : vs [1, 2] (exec (.ldVV 1 2) (regs [(2, 0x99)] base)) = some [0x99, 0x99] := by decide

/-- AR-4. -/
theorem test_orVV :
    vs [1, 0xF] (exec (.orVV 1 2) (regs [(1, 0x0F), (2, 0xF0), (0xF, 7)] base)) = some [0xFF, 7] := by decide

/-- AR-4, with `LOGIC_VF = reset`. -/
theorem test_orVV_reset :
    vs [1, 0xF] (exec (.orVV 1 2) (regs [(1, 0x0F), (2, 0xF0), (0xF, 7)]
      { base with cfg := { cfg with logicVf := .reset } })) = some [0xFF, 0] := by decide

/-- AR-5. -/
theorem test_andVV : vs [1] (exec (.andVV 1 2) (regs [(1, 0x3C), (2, 0x0F)] base)) = some [0x0C] := by decide

/-- AR-5. -/
theorem test_xorVV : vs [1] (exec (.xorVV 1 2) (regs [(1, 0x3C), (2, 0x0F)] base)) = some [0x33] := by decide

/-- S6, S7. -/
theorem test_addVV :
    vs [1, 0xF] (exec (.addVV 1 2) (regs [(1, 0xED), (2, 0x4B)] base)) = some [0x38, 1] ∧
    vs [1, 0xF] (exec (.addVV 1 2) (regs [(1, 0x2D), (2, 0x4B)] base)) = some [0x78, 0] := by decide

/-- AR-7: the flag overwrites the result. -/
theorem test_addVV_into_VF : vs [0xF] (exec (.addVV 0xF 2) (regs [(0xF, 0xFF), (2, 2)] base)) = some [1] := by
  decide

/-- S8, S9. -/
theorem test_subVV :
    vs [1, 0xF] (exec (.subVV 1 2) (regs [(1, 0x4B), (2, 0x2D)] base)) = some [0x1E, 1] ∧
    vs [1, 0xF] (exec (.subVV 1 2) (regs [(1, 0x2D), (2, 0x4B)] base)) = some [0xE2, 0] := by decide

/-- AR-9: equal operands are not a borrow. -/
theorem test_subVV_equal : vs [1, 0xF] (exec (.subVV 1 1) (regs [(1, 0x10)] base)) = some [0, 1] := by decide

/-- AR-12, AR-14. -/
theorem test_shrVV :
    vs [1, 2, 0xF] (exec (.shrVV 1 2) (regs [(2, 5)] base)) = some [2, 5, 1] ∧
    vs [1, 0xF] (exec (.shrVV 1 1) (regs [(1, 3)] base)) = some [1, 1] := by decide

/-- AR-10, AR-11. -/
theorem test_subnVV :
    vs [1, 0xF] (exec (.subnVV 1 2) (regs [(1, 0x4B), (2, 0x2D)] base)) = some [0xE2, 0] ∧
    vs [1, 0xF] (exec (.subnVV 1 2) (regs [(1, 0x2D), (2, 0x4B)] base)) = some [0x1E, 1] := by decide

/-- AR-13. -/
theorem test_shlVV : vs [1, 0xF] (exec (.shlVV 1 2) (regs [(2, 0x81)] base)) = some [2, 1] := by decide

/-! ### Memory and index (section 6) -/

/-- MI-1. -/
theorem test_ldIA : (next (exec (.ldIA 0x2F0) base)).map (·.i) = some 0x02F0 := by decide

/-- MI-2, MI-4. -/
theorem test_addIV :
    (next (exec (.addIV 3) (regs [(3, 0x20)] { base with i := 0x02F0 }))).map (·.i) = some 0x0310 ∧
    (next (exec (.addIV 0) (regs [(0, 1)] { base with i := 0xFFFF }))).map (·.i) = some 0x0000 := by decide

/-- MI-2, MI-3: the page crossing that selects the cost. -/
theorem test_page_crossed : pageCrossed 0x02F0 0x20 = true ∧ pageCrossed 0x0200 0x20 = false := by decide

/-- MI-6: no 12-bit wrap. -/
theorem test_jpV0 : (next (exec (.jpV0 0xFFF) (regs [(0, 0xFF)] base))).map (·.pc) = some 0x10FE := by decide

/-- MI-7, MI-8. -/
theorem test_ldFV :
    (next (exec (.ldFV 4) (regs [(4, 0x0B)] base))).map (·.i) = some 0x0037 ∧
    (next (exec (.ldFV 4) (regs [(4, 0x1A)] base))).map (·.i) = some 0x0032 := by decide

/-- S10, MI-9. -/
theorem test_ldBV :
    mem [0x300, 0x301, 0x302] (exec (.ldBV 5) (regs [(5, 0x7B)] { base with i := 0x0300 })) = some [1, 2, 3] ∧
    mem [0x300, 0x301, 0x302] (exec (.ldBV 0) (regs [(0, 0xFF)] { base with i := 0x0300 })) = some [2, 5, 5] := by
  decide

/-- MI-10. -/
theorem test_ldBV_faults :
    error (exec (.ldBV 0) { base with i := 0x0FFE }) = some (.memoryBounds 0x0FFE 3 .write) := by decide

/-- MI-12: a snapshot of the registers is stored over them. -/
theorem test_ldMV :
    vs [0, 1, 2, 3] (exec (.ldMV 2) (regs [(0, 1), (1, 2), (2, 3)] { base with i := 0x0EF1 })) =
      some [1, 1, 2, 3] ∧
    (next (exec (.ldMV 2) (regs [(0, 1), (1, 2), (2, 3)] { base with i := 0x0EF1 }))).map (·.i) =
      some 0x0EF4 := by decide

/-- MI-13. -/
theorem test_ldVM :
    vs [0, 1, 2] (exec (.ldVM 2) (bytes 0x300 [1, 2, 3] { base with i := 0x0300 })) = some [1, 2, 3] ∧
    (next (exec (.ldVM 2) (bytes 0x300 [1, 2, 3] { base with i := 0x0300 }))).map (·.i) = some 0x0303 := by decide

/-- MI-14. -/
theorem test_ldVM_faults :
    error (exec (.ldVM 1) { base with i := 0x0FFF }) = some (.memoryBounds 0x0FFF 2 .read) := by decide

/-! ### Random (section 7) -/

/-- R-1, R-3. -/
theorem test_rnd :
    (next (exec (.rnd 7 0xFF) (bytes 0x135 [0x5A] { base with seed := 0x1234 }))).map (fun t => (t.v 7, t.seed)) =
      some (0xA2, 0xA235) ∧
    vs [7] (exec (.rnd 7 0x0F) (bytes 0x135 [0x5A] { base with seed := 0x1234 })) = some [0x02] := by decide

/-- R-2: with a carry. -/
theorem test_rnd_carry :
    (next (exec (.rnd 7 0xFF) (bytes 0x100 [0x20] { base with seed := 0xF0FF }))).map (fun t => (t.v 7, t.seed)) =
      some (0x99, 0x9900) := by decide

/-! ### Keys (section 8) -/

/-- The block with these poll answers standing ready. -/
def polls (ks : List KeyAnswer) (s : State) : State := { s with inputs := { s.inputs with keys := ks } }

/-- K-1 to K-3. -/
theorem test_skp :
    (next (exec (.skp 5) (polls [.key 0xA] (regs [(5, 0x0A)] base)))).map (·.pc) = some 0x0204 ∧
    (next (exec (.skp 5) (polls [.none] (regs [(5, 0x0A)] base)))).map (·.pc) = some 0x0202 ∧
    (next (exec (.skp 5) (polls [.key 3] (regs [(5, 0x13)] base)))).map (·.pc) = some 0x0204 := by decide

/-- K-6. -/
theorem test_skp_failure : error (exec (.skp 5) (polls [.failure] base)) = some .inputFailure := by decide

/-- K-4, K-5. -/
theorem test_sknp :
    (next (exec (.sknp 5) (polls [.none] (regs [(5, 0x0A)] base)))).map (·.pc) = some 0x0204 ∧
    (next (exec (.sknp 5) (polls [.key 2] (regs [(5, 0x0A)] base)))).map (·.pc) = some 0x0204 := by decide

/-- K-7, K-8. -/
theorem test_ldVK :
    (next (exec (.ldVK 3) (polls [.key 7] base))).map (fun t => (t.v 3, t.pc)) = some (7, 0x0202) ∧
    (next (exec (.ldVK 3) (polls [.none] base))).map (fun t => (t.v 3, t.pc)) = some (0, 0x0200) := by decide

/-! ### Sprites (section 9) -/

/-- SP-1, phase one: the work area, and the wait. -/
theorem test_drw_phase_one :
    (next (exec (.drw 0 1 2) (regs [(0, 6), (1, 2)] (bytes 0x300 [0xF0, 0x90]
      { fetched .drw 0xD012 with i := 0x0300 })))).map (fun t =>
        ([0xED0, 0xED1, 0xED2, 0xED3].map t.mem.read, t.core, t.dec.phase)) =
      some ([0x03, 0xC0, 0x02, 0x40], .waitInterrupt, .two) := by decide

/-- SP-1, phase two. -/
theorem test_drw_phase_two :
    (next (exec (.drw 0 1 2) (phaseTwo (regs [(0, 6), (1, 2)] (bytes 0xED0 [0x03, 0xC0, 0x02, 0x40] base))))).map
      (fun t => ([0xF10, 0xF11, 0xF18, 0xF19].map t.mem.read, t.v 0xF, t.core)) =
      some ([0x03, 0xC0, 0x02, 0x40], 0, .fetchDecode) := by decide

/-- SP-3, SP-4: clipped at the right edge and at the bottom. -/
theorem test_drw_clips :
    mem [0xF07, 0xF08] (exec (.drw 0 1 1) (phaseTwo (regs [(0, 60)] (bytes 0xED0 [0x0F, 0xF0] base)))) =
      some [0x0F, 0] ∧
    mem [0xFF8, 0xF00] (exec (.drw 0 1 2) (phaseTwo (regs [(1, 31)] (bytes 0xED0 [0x80, 0, 0x80, 0] base)))) =
      some [0x80, 0] := by decide

/-- SP-6, SP-7: `VF` says whether a set pixel was cleared. -/
theorem test_drw_collision :
    (next (exec (.drw 0 1 1) (phaseTwo (bytes 0xF00 [0x40] (bytes 0xED0 [0x80] base))))).map
      (fun t => (t.mem.read 0xF00, t.v 0xF)) = some (0xC0, 0) ∧
    (next (exec (.drw 0 1 1) (phaseTwo (bytes 0xF00 [0x40] (bytes 0xED0 [0xC0] base))))).map
      (fun t => (t.mem.read 0xF00, t.v 0xF)) = some (0x80, 1) := by decide

/-- SP-10. -/
theorem test_drw_faults :
    error (exec (.drw 0 1 2) { fetched .drw 0xD012 with i := 0x0FFF }) = some (.memoryBounds 0x0FFF 2 .read) := by
  decide

/-! ### Timers and the interrupt (sections 10 and 11) -/

/-- TM-1, TM-2. -/
theorem test_general_timer :
    vs [5] (exec (.ldVDT 5) { base with generalTimer := 0x3C }) = some [0x3C] ∧
    (next (exec (.ldDTV 5) (regs [(5, 0x3C)] base))).map (·.generalTimer) = some 0x3C := by decide

/-- TM-3 to TM-5. -/
theorem test_ldSTV :
    (next (exec (.ldSTV 6) (regs [(6, 2)] base))).map (fun t => (t.toneTimer, t.events)) =
      some (2, [.sound .beep .ok]) ∧
    (next (exec (.ldSTV 6) (regs [(6, 9)] { base with toneTimer := 5 }))).map (fun t => (t.toneTimer, t.events)) =
      some (9, []) ∧
    (next (exec (.ldSTV 6) { base with toneTimer := 5 })).map (fun t => (t.toneTimer, t.events)) =
      some (0, [.sound .stop .ok]) := by decide

/-- INT-3, INT-4. -/
theorem test_interrupt_timers :
    (next (interrupt { base with toneTimer := 1 })).map (fun t =>
      (t.cost, t.generalTimer, t.toneTimer, t.events.head?)) = some (1835, 0, 0, some (.sound .stop .ok)) ∧
    (next (interrupt { base with generalTimer := 5, toneTimer := 3 })).map (fun t =>
      (t.cost, t.generalTimer, t.toneTimer)) = some (1843, 4, 2) := by decide +kernel

/-- INT-5, INT-6. -/
theorem test_interrupt_seed_and_wait :
    (next (interrupt { base with seed := 0xFFFF, core := .waitInterrupt })).map (fun t => (t.seed, t.core, t.cost)) =
      some (0x0000, .execute, 1831) := by decide

/-- INT-7; the framebuffer passed to the failing draw is output (R255). -/
theorem test_interrupt_failing_draw :
    let s : State := bytes 0x0F00 [0x5A] { base with
      seed := 0x1234, toneTimer := 1, inputs := { base.inputs with draws := [.failure] } }
    error (interrupt s) = some .displayFailure ∧
    (final (interrupt s)).map (fun t => (t.seed, t.toneTimer, t.inputs.draws)) = some (0x1234, 1, []) ∧
    (final (interrupt s)).map (·.events) = some [.draw (0x5A :: List.replicate 255 0x00) .failure] := by
  decide +kernel

/-! ### The scheduler (section 12): the first three calls of a self-jump -/

/-- A self-jump at 0x0200, constructed. -/
def selfJump : State := bytes 0x200 [0x12, 0x00] { State.reset with cfg := cfg }

theorem test_first_calls :
    (next (step selfJump)).map (fun t => (t.core, t.sched)) = some (.fetchDecode, ⟨1831 * 4540, 1⟩) := by decide

theorem test_placed_word_runs :
    (next (step (State.reset.withFetchWord 16 0x1234))).map (fun t => (t.pc, t.cost)) = some (0x0234, 12) := by
  decide

/-! ### Witnesses -/

theorem witness_DecodeInvertsEncode :
    Instr.wellFormed .retry (.ldVK 0xF) = true ∧ Instr.wellFormed .fatal (.drw 0xF 0xF 0xF) = true := by decide

theorem witness_EncodeInvertsDecode : decode .retry 0xFF0A = .ok (.ldVK 0xF) := by rfl

theorem witness_DecodeFindsTheUniqueRow : 0x00E0 &&& Op.cls.mask = Op.cls.pattern := by decide

theorem witness_IllegalWordsAreTheListedOnes :
    let s := bytes 0xFFE [0x01, 0x23] { fresh with pc := 0x0FFE }
    decodeOp s.cfg.fx0aMode 0x0123 = none ∧ s.core = .fetchDecode ∧ s.pc.toNat + 2 = memSize s.cfg ∧
      s.mem.readWord s.pc.toNat = 0x0123 := by decide

theorem witness_FetchLatchesTheWord :
    let s := bytes 0xFFE [0x00, 0xE0] { fresh with pc := 0x0FFE }
    s.core = .fetchDecode ∧ s.pc.toNat + 2 = memSize s.cfg ∧
      (0x00E0 : Word) = s.mem.read s.pc.toNat ++ s.mem.read (s.pc.toNat + 1) ∧
      decodeOp s.cfg.fx0aMode 0x00E0 = some .cls := by decide

theorem witness_FetchFaultsArePrecise :
    let s := bytes 0xFFE [0x01, 0x23] { fresh with pc := 0x0FFE }
    memSize cfg < ({ fresh with pc := 0x0FFF } : State).pc.toNat + 2 ∧ s.pc.toNat + 2 = memSize s.cfg ∧
      (0x0123 : Word) = s.mem.read s.pc.toNat ++ s.mem.read (s.pc.toNat + 1) ∧
      decodeOp s.cfg.fx0aMode 0x0123 = none := by decide

theorem witness_StepRunsTheDecodedInstruction_fetch :
    let s := bytes 0xFFE [0x12, 0x34] { fresh with pc := 0x0FFE }
    s.halted = .running ∧ s.core = .fetchDecode ∧ nextCall s = .cycle ∧ s.pc.toNat + 2 = memSize s.cfg := by decide

theorem witness_StepRunsTheDecodedInstruction_bytes :
    decodeBytes .retry (Memory.readBytes (bytes 0xFFE [0x12, 0x34] fresh).mem 0xFFE 2) = .ok (.jp 0x234, []) := by
  rfl

theorem witness_StepRunsTheDecodedInstruction_execute :
    let t := fetched .jp 0x1234
    t.halted = .running ∧ t.core = .execute ∧ t.latched = some (.jp 0x234) ∧ nextCall t = .cycle := by decide

theorem witness_PlacedWordRunsNext :
    State.reset.pc.toNat + 2 ≤ memSize State.reset.cfg ∧ 0xFFFF - 1 < 2 ^ 16 ∧
      decode State.reset.cfg.fx0aMode (BitVec.ofNat 16 0x1234) = .ok (.jp 0x234) := ⟨by decide, by decide, rfl⟩

/-- A sprite draw that waits. -/
def waiting : State := { phaseTwo base with core := .waitInterrupt }

theorem witness_OnlyInterruptEndsTheWait :
    waiting.core = .waitInterrupt ∧ nextCall waiting = .cycle ∧ (next (step waiting)).isSome = true ∧
    nextCall { waiting with sched := { t := 16666667, frames := 1 } } = .interrupt ∧
    (next (step { waiting with sched := { t := 16666667, frames := 1 } })).isSome = true := by decide

theorem witness_OnlyDrawPhaseOneWaits :
    (next (exec (.drw 0 1 0) (fetched .drw 0xD010))).isSome = true ∧
    (next (exec (.drw 0 1 0) (phaseTwo base))).isSome = true ∧ (next (exec (.jp 0) base)).isSome = true := by decide

theorem witness_ClearScreenZeroesTheDisplay : base.displayPointer = BitVec.ofNat 16 (displayAddr base.cfg) := by decide

theorem witness_ReturnPopsTheAddress :
    (0x0FFC + 2) % 65536 + 2 = memSize cfg ∧ (0xFFFE + 2) % 65536 + 2 ≤ memSize cfg ∧
    memSize cfg < (0x0FFD + 2) % 65536 + 2 := by decide

theorem witness_CallPushesTheReturnAddress : 0x0FFE + 2 = memSize cfg ∧ memSize cfg < 0x0FFF + 2 := by decide

theorem witness_DecimalDigitsAreStored : 0x0FFD + 3 = memSize cfg ∧ memSize cfg < 0x0FFE + 3 := by decide

theorem witness_BulkSaveStoresTheRegisters :
    16 = (0xF : Nibble).toNat + 1 ∧ 0x0FF0 + 16 = memSize cfg ∧ memSize cfg < 0x0FF1 + 16 := by decide

theorem witness_BulkLoadReadsMemory :
    1 = (0 : Nibble).toNat + 1 ∧ 0x0FFF + 1 = memSize cfg ∧ memSize cfg < 0x1000 + 1 := by decide

/-- Two tables that agree at the byte the seed selects and nowhere near it. -/
theorem witness_RandomDrawsFromOneTableByte :
    (fun j : Byte => if j = 0x35 then (0x5A : Byte) else 0) (loByte (0x1234 + 1)) =
      (fun _ : Byte => (0x5A : Byte)) (loByte (0x1234 + 1)) := by decide

/-- R-2, step by step. -/
theorem witness_ReferenceGeneratorArithmetic :
    cfg.rndFn = .reference ∧ 0xF100 = ((0xF0FF : Word).toNat + 1) % 65536 ∧ 0x111 = 0xF100 / 256 + 0x20 ∧
    0x11 = 0x111 % 256 ∧ 0x88 = 128 * (0x111 / 256) + 0x11 / 2 ∧ 0x99 = (0x88 + 0x11) % 256 := by decide

theorem witness_KeySkipsPollOnce :
    let s := polls [.key 3] (regs [(5, 0x13)] base)
    true = decide (∃ k : Nibble, s.inputs.nextKey = .key k ∧ k.toNat = (s.v 5).toNat % 16) ∧
    s.inputs.nextKey ≠ .failure ∧ (polls [.failure] base).inputs.nextKey = .failure := by decide

theorem witness_KeyWaitRetries :
    (fieldOp 0xFF0A = 0xF ∧ fieldKK 0xFF0A = 0x0A) ∧ base.cfg.fx0aMode = .retry ∧
    (polls [.key 0xF] base).inputs.nextKey = .key 0xF ∧ (polls [.none] base).inputs.nextKey = .none ∧
    (polls [.failure] base).inputs.nextKey = .failure := by decide

theorem witness_DrawPhaseOneFillsTheWorkArea :
    (fetched .drw 0xD01F).dec.phase = .one ∧ 7 = ((regs [(0, 0x4F)] base).v 0).toNat % 8 ∧
    0x0FF1 + (0xF : Nibble).toNat = memSize cfg ∧ memSize cfg < 0x0FF2 + (0xF : Nibble).toNat := by decide

/-- One sprite bit over a set pixel and over a clear one: the two flag clauses. -/
theorem witness_DrawPhaseTwoXorsTheFramebuffer :
    let s := phaseTwo (bytes 0xED0 [0x80] base)
    let hit := bytes 0xF00 [0x80] s
    s.dec.phase = .two ∧ s.displayPointer = BitVec.ofNat 16 (displayAddr s.cfg) ∧
    1 = min (1 : Nibble).toNat (32 - (s.v 1).toNat % 32) ∧
    (∃ r < 32, ∃ c < 8, screenByte hit r c &&& drawnByte hit 0 1 1 r c ≠ 0) ∧
    (∀ r < 32, ∀ c < 8, screenByte s r c &&& drawnByte s 0 1 1 r c = 0) := by decide +kernel

theorem witness_DrawingTwiceRestoresTheFramebuffer :
    let s := phaseTwo (bytes 0xED0 [0x80] base)
    let hit := bytes 0xF00 [0x80] s
    s.dec.phase = .two ∧ (0 : Nibble) ≠ 0xF ∧ (1 : Nibble) ≠ 0xF ∧
    s.displayPointer = BitVec.ofNat 16 (displayAddr s.cfg) ∧
    (∃ r < 32, ∃ c < 8, ~~~(screenByte s r c) &&& drawnByte s 0 1 1 r c ≠ 0) ∧
    (∀ r < 32, ∀ c < 8, ~~~(screenByte hit r c) &&& drawnByte hit 0 1 1 r c = 0) := by decide +kernel

theorem witness_DrawOfZeroRowsOnlyClearsVf :
    (fetched .drw 0xD010).dec.phase = .one ∧ (phaseTwo base).dec.phase = .two := by decide

theorem witness_ToneTimerDrivesSound :
    (base.toneTimer = 0 ∧ (regs [(6, 1)] base).v 6 ≠ 0) ∧
    (({ base with toneTimer := 0xFF } : State).toneTimer ≠ 0 ∧ base.v 6 = 0) ∧
    (base.toneTimer = 0 ↔ base.v 6 = 0) := by decide

theorem witness_InterruptServicesTheFrame :
    base.displayPointer = BitVec.ofNat 16 (displayAddr base.cfg) ∧ base.inputs.nextDraw = .ok := by decide

theorem witness_InterruptCostCountsTheTimers : (next (interrupt base)).isSome = true := by decide

theorem witness_InterruptDrawsTheFramebuffer :
    base.displayPointer = BitVec.ofNat 16 (displayAddr base.cfg) ∧ base.toneTimer ≠ 1 ∧
    (next (interrupt base)).isSome = true ∧ (next (interrupt { base with toneTimer := 1 })).isSome = true := by
  decide

theorem witness_DisplayFailureIsFatal :
    let s : State := { base with inputs := { base.inputs with draws := [.failure] } }
    s.displayPointer = BitVec.ofNat 16 (displayAddr s.cfg) ∧ s.inputs.nextDraw = .failure := by decide

/-- A state of the exact scheduler. -/
def atTime (t frames : Nat) (n : Option Nat) : State :=
  { bytes 0x200 [0x12, 0x00] fresh with cfg := { cfg with numFrames := n }, sched := { t := t, frames := frames } }

theorem witness_ExactSchedulerStep :
    (atTime 16666666 1 none).cfg.timing = .exact ∧ (atTime 16666666 1 none).halted = .running ∧
    (next (cycle (atTime 16666666 1 none))).isSome = true ∧
    (next (interrupt (atTime 16666667 1 (some 2)))).isSome = true ∧ (1 : Nat) < 2 ∧
    (atTime 16666667 2 (some 2)).cfg.numFrames = some 2 := by decide

/-- A state of the free scheduler. -/
def freely (bs : List Bool) : State :=
  { atTime 0 0 none with cfg := { cfg with timing := .free }, inputs := { fresh.inputs with interrupts := bs } }

theorem witness_FreeSchedulerTakesTheInput :
    (freely [true, false]).halted = .running ∧ (freely [true, false]).cfg.timing = .free ∧
    (freely [true, false]).inputs.interrupts = [true, false] ∧
    (next (interrupt (freely [true]))).isSome = true ∧ (next (cycle (freely [false]))).isSome = true := by decide

theorem witness_CarryIsBelowTheLastCost :
    let s := atTime 16666340 1 none
    s.cfg.timing = .exact ∧ nextCall s = .cycle ∧
    (next (step s)).map (fun t => (t.sched.t - 16666667, decide (16666667 ≤ t.sched.t))) =
      some (308393, true) := by decide

theorem witness_FirstCallIsAnInterrupt :
    cfg.timing = .exact ∧ cfg.numFrames ≠ some 0 ∧ fresh.inputs.nextDraw = .ok ∧
    ∃ s, construct cfg (Vector.replicate 512 0) 0x1234 fresh.inputs [0x12, 0x00] = .next s :=
  ⟨by decide, by decide, by decide, _, rfl⟩

theorem witness_ConstructionLoadsImageAndRom :
    0x200 + (List.replicate 3584 (0xFF : Byte)).length = memSize cfg ∧
    memSize cfg < 0x200 + (List.replicate 3585 (0xFF : Byte)).length := by
  rw [List.length_replicate, List.length_replicate]; decide

theorem witness_AccessIsBounded :
    0xFFF + ([1] : List Byte).length = memSize base.cfg ∧ memSize base.cfg < 0xFFF + ([1, 2] : List Byte).length ∧
    0xFFE + 2 = memSize base.cfg := by decide

/-- The block with a fetched self-jump meets the invariant. -/
theorem witness_StepKeepsInvariant : Inv (fetched .jp 0x1200) :=
  ⟨by decide, by decide, by decide, rfl, fun _ => ⟨.jp, rfl, rfl, rfl, rfl, nofun⟩, nofun⟩

theorem witness_StepKeepsInvariant_steps : (next (step (fetched .jp 0x1200))).map (·.pc) = some 0x0200 := by decide

theorem witness_RunningBlockIsNeverRefused : Inv (fetched .jp 0x1200) := witness_StepKeepsInvariant

theorem witness_ParametersNeverChange : (next (step (fetched .jp 0x1200))).isSome = true := by decide

theorem witness_ConstructMeetsInvariant :
    ∃ s, construct cfg (Vector.replicate 512 0xFF) 0xFFFF fresh.inputs [0x12, 0x00] = .next s := ⟨_, rfl⟩

theorem witness_FatalErrorsArePreciseAndFinal :
    fresh.halted = .running ∧ error (step fresh) = some (.unknownOpcode 0x0000 0x0200) ∧
    error (step { fresh with pc := 0x0FFF }) = some (.memoryBounds 0x0FFF 2 .read) ∧
    error (step (polls [.failure] (fetched .skp 0xE59E))) = some .inputFailure ∧
    error (step { fresh with
      sched := { t := 16666667, frames := 1 }
      inputs := { fresh.inputs with draws := [.failure] } }) = some .displayFailure := by decide

/-- An instruction outside each clause's list, that answers next. -/
theorem witness_RegistersHaveTheListedWriters :
    (next (exec (.ldVB 1 2) base)).isSome = true ∧
    Op.ldVB ∉ [Op.ldIA, .addIV, .ldFV, .ldMV, .ldVM] ∧ Op.ldVB ∉ [Op.call, .ret] ∧
    Op.ldVB ≠ .ldDTV ∧ Op.ldVB ≠ .ldSTV ∧ Op.ldVB ≠ .rnd := by decide

theorem witness_ProgramBytesHaveThreeWriters :
    (next (exec (.ldVM 2) base)).isSome = true ∧ Op.ldVM ∉ [Op.ldBV, .ldMV, .call] ∧ 0xECF < workAddr cfg := by decide

/-- Two blocks whose costs differ. -/
theorem witness_CostsOnlyPlaceInterrupts :
    let s := freely [false]
    let s' : State := { s with cfg := { s.cfg with costs := [(.cls, 3078)] }, cost := 12 }
    s.forgetCosts = s'.forgetCosts ∧ s ≠ s' ∧ s.cfg.timing = .free := by decide

end Sys2Proof.Tests
end

namespace Sys2Proof.Machine

/-- The number a big-endian pair of bytes stands for (R56). -/
theorem toNat_wordOfBytes (hi lo : Byte) : (wordOfBytes hi lo).toNat = 256 * hi.toNat + lo.toNat := by
  rw [wordOfBytes, BitVec.toNat_append, ← Nat.shiftLeft_add_eq_or_of_lt lo.isLt, Nat.shiftLeft_eq]
  omega

namespace Memory

theorem toNat_readWord (m : Memory) (a : Nat) :
    (m.readWord a).toNat = 256 * (m.read a).toNat + (m.read (a + 1)).toNat :=
  toNat_wordOfBytes _ _

/-- The bytes written stand in order from the first address on. -/
theorem read_writeBytes_inside (m : Memory) (a : Nat) (bs : List Byte) {k : Nat} (hk : k < bs.length) :
    (m.writeBytes a bs).read (a + k) = bs.getD k 0 := by
  rw [read_writeBytes, if_pos (by omega), Nat.add_sub_cancel_left]

/-- A write leaves every byte outside its range. -/
theorem read_writeBytes_outside (m : Memory) (a : Nat) (bs : List Byte) {b : Nat}
    (hb : ¬(a ≤ b ∧ b < a + bs.length)) : (m.writeBytes a bs).read b = m.read b := by
  rw [read_writeBytes, if_neg hb]

end Memory

/-- Settles O49: what each access answers, inside its bound and outside it, joined to the law of the memory
operation it makes. -/
theorem accessIsBounded : Obligations.AccessIsBounded := by
  refine ⟨fun a bs s => ⟨fun h => ?written, memWrite_error⟩, fun a n s => ⟨fun h => ?bytes, memRead_error⟩,
    fun a s => ⟨fun h => ?word, memReadWord_error⟩⟩
  case written =>
    exact ⟨_, memWrite_ok h, fun _ hk => Memory.read_writeBytes_inside _ _ _ hk,
      fun _ hb => Memory.read_writeBytes_outside _ _ _ hb⟩
  case bytes =>
    exact ⟨_, memRead_ok h, Memory.readBytes_length _ _ _, Memory.readBytes_getD _ _ _⟩
  case word =>
    exact ⟨_, memReadWord_ok h, Memory.toNat_readWord _ _⟩

end Sys2Proof.Machine

namespace Sys2Proof

/-! ### The rows a major opcode selects (spec/30_encoding.md R84, R85) -/

/-- The word whose set bits are `len` bits from bit `start` on. -/
def fieldMask (start len : Nat) : Word := (BitVec.allOnes len).setWidth 16 <<< start

/-- Two words agree under a field's mask exactly when they agree in the field. -/
theorem and_fieldMask_eq_iff (start len : Nat) (h : start + len ≤ 16) (w p : Word) :
    w &&& fieldMask start len = p &&& fieldMask start len ↔
      w.extractLsb' start len = p.extractLsb' start len := by
  constructor <;> intro heq <;> apply BitVec.eq_of_getLsbD_eq <;> intro i hi
  · have hbit := congrArg (BitVec.getLsbD · (start + i)) heq
    simpa [fieldMask, hi, show start + i < 16 by omega] using hbit
  · by_cases hin : start ≤ i ∧ i - start < len
    · have hbit := congrArg (BitVec.getLsbD · (i - start)) heq
      simp only [BitVec.getLsbD_extractLsb', hin.2, Nat.add_sub_cancel' hin.1, decide_true, Bool.true_and] at hbit
      rw [BitVec.getLsbD_and, BitVec.getLsbD_and, hbit]
    · have hclear : (fieldMask start len).getLsbD i = false := by
        simp only [fieldMask, BitVec.getLsbD_shiftLeft, BitVec.getLsbD_setWidth, BitVec.getLsbD_allOnes]
        grind
      rw [BitVec.getLsbD_and, BitVec.getLsbD_and, hclear, Bool.and_false, Bool.and_false]

/-- Agreement under two masks together is agreement under each. -/
theorem and_or_mask_eq_iff (w p m n : Word) :
    w &&& (m ||| n) = p &&& (m ||| n) ↔ w &&& m = p &&& m ∧ w &&& n = p &&& n := by
  simp only [BitVec.eq_of_getLsbD_eq_iff, BitVec.getLsbD_and, BitVec.getLsbD_or, ← forall_and]
  refine forall₂_congr fun i _ => ?_
  cases m.getLsbD i <;> cases n.getLsbD i <;> simp

/-- Agreement in the major opcode and in the low `len` bits, as one mask. -/
theorem and_majorMask_eq_iff (len : Nat) (h : len ≤ 16) (w p : Word) :
    w &&& (fieldMask 12 4 ||| fieldMask 0 len) = p &&& (fieldMask 12 4 ||| fieldMask 0 len) ↔
      fieldOp w = fieldOp p ∧ w.extractLsb' 0 len = p.extractLsb' 0 len := by
  rw [and_or_mask_eq_iff, and_fieldMask_eq_iff 12 4 (by decide), and_fieldMask_eq_iff 0 len (by omega)]
  rfl

/-- Below the major opcode, the word has the fixed bits that a row of this format has in its pattern. -/
@[simp] def Format.FixedBelow (w p : Word) : Format → Prop
  | .F0 => fieldNNN w = fieldNNN p
  | .FA | .FB | .FD => True
  | .FR => fieldN w = fieldN p
  | .FK => fieldKK w = fieldKK p

theorem Format.and_mask_eq_iff (f : Format) (w p : Word) :
    w &&& f.mask = p &&& f.mask ↔ fieldOp w = fieldOp p ∧ f.FixedBelow w p := by
  cases f with
  | F0 => exact and_majorMask_eq_iff 12 (by decide) w p
  | FR => exact and_majorMask_eq_iff 4 (by decide) w p
  | FK => exact and_majorMask_eq_iff 8 (by decide) w p
  | FA | FB | FD => exact (and_fieldMask_eq_iff 12 4 (by decide) w p).trans (and_iff_left trivial).symm

theorem Op.matchesWord_iff (o : Op) (w : Word) :
    o.matchesWord w = true ↔ fieldOp w = fieldOp o.pattern ∧ o.format.FixedBelow w o.pattern := by
  rw [← Format.and_mask_eq_iff, matchesWord, beq_iff_eq, ← Op.mask, pattern_mask]

/-- The rows whose pattern has this major opcode. -/
def Op.ofMajor (k : Nibble) : List Op := Op.all.filter fun o => fieldOp o.pattern = k

/-- Decoding fails exactly when no available row of the word's own major opcode has its fixed bits. -/
theorem decodeOp_eq_none_iff (mode : Fx0aMode) (w : Word) :
    decodeOp mode w = none ↔
      ∀ o ∈ Op.ofMajor (fieldOp w), o.available mode = true → ¬ o.format.FixedBelow w o.pattern := by
  simp only [decodeOp, Op.ofMajor, List.find?_eq_none, List.mem_filter, decide_eq_true_eq,
    Bool.and_eq_true, Op.matchesWord_iff]
  grind

/-- A word decodes to a row of its own major opcode. -/
theorem mem_ofMajor_of_decodeOp {mode : Fx0aMode} {w : Word} {o : Op} (h : decodeOp mode w = some o) :
    o ∈ Op.ofMajor (fieldOp w) := by
  have hfit := List.find?_some h
  rw [Bool.and_eq_true, Op.matchesWord_iff] at hfit
  simpa [Op.ofMajor, hfit.2.1] using List.mem_of_find?_eq_some h

theorem Op.ofMajor_0 : Op.ofMajor 0x0 = [.cls, .ret] := by decide

theorem Op.ofMajor_5 : Op.ofMajor 0x5 = [.seVV] := by decide

theorem Op.ofMajor_8 : Op.ofMajor 0x8 =
    [.ldVV, .orVV, .andVV, .xorVV, .addVV, .subVV, .shrVV, .subnVV, .shlVV] := by decide

theorem Op.ofMajor_9 : Op.ofMajor 0x9 = [.sneVV] := by decide

theorem Op.ofMajor_E : Op.ofMajor 0xE = [.skp, .sknp] := by decide

theorem Op.ofMajor_F : Op.ofMajor 0xF =
    [.ldVDT, .ldVK, .ldDTV, .ldSTV, .addIV, .ldFV, .ldBV, .ldMV, .ldVM] := by decide

/-- The major opcodes with one row, whose format fixes no bit below them. -/
def fullMajors : List Nibble := [0x1, 0x2, 0x3, 0x4, 0x6, 0x7, 0xA, 0xB, 0xC, 0xD]

theorem exists_free_row_of_fullMajor : ∀ k ∈ fullMajors,
    ∃ o ∈ Op.ofMajor k, o ≠ .ldVK ∧ (o.format = .FA ∨ o.format = .FB ∨ o.format = .FD) := by
  decide

/-- Only `FX0A` is absent in a mode (R86). -/
theorem Op.available_of_ne_ldVK (mode : Fx0aMode) {o : Op} (h : o ≠ .ldVK) : o.available mode = true := by
  unfold Op.available
  split
  · exact absurd rfl h
  · rfl

/-! ### The illegal words of each major opcode (R86) -/

section
variable {mode : Fx0aMode} {w : Word}

theorem decodeOp_eq_none_of_major_0 (h : fieldOp w = 0x0) :
    decodeOp mode w = none ↔ fieldNNN w ≠ 0x0E0 ∧ fieldNNN w ≠ 0x0EE := by
  rw [decodeOp_eq_none_iff, h, Op.ofMajor_0]
  simp [Op.available, Op.format, Op.pattern, fieldNNN]

theorem decodeOp_eq_none_of_major_5_or_9 (h : fieldOp w = 0x5 ∨ fieldOp w = 0x9) :
    decodeOp mode w = none ↔ fieldN w ≠ 0 := by
  rcases h with h | h
  · rw [decodeOp_eq_none_iff, h, Op.ofMajor_5]
    simp [Op.available, Op.format, Op.pattern, fieldN]
  · rw [decodeOp_eq_none_iff, h, Op.ofMajor_9]
    simp [Op.available, Op.format, Op.pattern, fieldN]

theorem decodeOp_eq_none_of_major_8 (h : fieldOp w = 0x8) :
    decodeOp mode w = none ↔ fieldN w ∈ ([0x8, 0x9, 0xA, 0xB, 0xC, 0xD, 0xF] : List Nibble) := by
  have hsplit : ∀ n : Nibble, (n ∉ ([0x0, 0x1, 0x2, 0x3, 0x4, 0x5, 0x6, 0x7, 0xE] : List Nibble)) ↔
    n ∈ ([0x8, 0x9, 0xA, 0xB, 0xC, 0xD, 0xF] : List Nibble) := by decide
  rw [decodeOp_eq_none_iff, h, Op.ofMajor_8, ← hsplit]
  simp [Op.available, Op.format, Op.pattern, fieldN]

theorem decodeOp_eq_none_of_major_E (h : fieldOp w = 0xE) :
    decodeOp mode w = none ↔ fieldKK w ≠ 0x9E ∧ fieldKK w ≠ 0xA1 := by
  rw [decodeOp_eq_none_iff, h, Op.ofMajor_E]
  simp [Op.available, Op.format, Op.pattern, fieldKK]

/-- `FX0A` is the one word whose row the mode may take away. -/
theorem decodeOp_eq_none_of_major_F (h : fieldOp w = 0xF) :
    decodeOp mode w = none ↔
      fieldKK w ∉ ([0x07, 0x0A, 0x15, 0x18, 0x1E, 0x29, 0x33, 0x55, 0x65] : List Byte) ∨
        (mode = .fatal ∧ fieldKK w = 0x0A) := by
  rw [decodeOp_eq_none_iff, h, Op.ofMajor_F]
  cases mode with
  | retry => simp [Op.available, Op.format, Op.pattern, fieldKK]
  | fatal =>
    by_cases hk : w.extractLsb' 0 8 = 0x0A#8
    · simp [Op.available, Op.format, Op.pattern, fieldKK, hk]
    · simp [Op.available, Op.format, Op.pattern, fieldKK, hk]

theorem decodeOp_ne_none_of_fullMajor (h : fieldOp w ∈ fullMajors) : decodeOp mode w ≠ none := by
  obtain ⟨o, ho, hne, hformat⟩ := exists_free_row_of_fullMajor _ h
  refine fun hnone => (decodeOp_eq_none_iff mode w).1 hnone o ho (Op.available_of_ne_ldVK mode hne) ?_
  rcases hformat with h | h | h <;> rw [h] <;> trivial

end

/-- Every major opcode is one of those the lemmas above speak of. -/
theorem major_cases (k : Nibble) :
    k = 0x0 ∨ (k = 0x5 ∨ k = 0x9) ∨ k = 0x8 ∨ k = 0xE ∨ k = 0xF ∨ k ∈ fullMajors := by
  revert k
  decide

/-- The listed illegal words (R86). -/
theorem decodeOp_eq_none_iff_listed (mode : Fx0aMode) (w : Word) :
    decodeOp mode w = none ↔
      (fieldOp w = 0x0 ∧ fieldNNN w ≠ 0x0E0 ∧ fieldNNN w ≠ 0x0EE) ∨
      ((fieldOp w = 0x5 ∨ fieldOp w = 0x9) ∧ fieldN w ≠ 0) ∨
      (fieldOp w = 0x8 ∧ fieldN w ∈ ([0x8, 0x9, 0xA, 0xB, 0xC, 0xD, 0xF] : List Nibble)) ∨
      (fieldOp w = 0xE ∧ fieldKK w ≠ 0x9E ∧ fieldKK w ≠ 0xA1) ∨
      (fieldOp w = 0xF ∧
        fieldKK w ∉ ([0x07, 0x0A, 0x15, 0x18, 0x1E, 0x29, 0x33, 0x55, 0x65] : List Byte)) ∨
      (mode = .fatal ∧ fieldOp w = 0xF ∧ fieldKK w = 0x0A) := by
  rcases major_cases (fieldOp w) with h | h | h | h | h | h
  · simp [decodeOp_eq_none_of_major_0 h, h]
  · rw [decodeOp_eq_none_of_major_5_or_9 h]
    rcases h with h | h <;> simp [h]
  · rw [decodeOp_eq_none_of_major_8 h]; simp [h]
  · simp [decodeOp_eq_none_of_major_E h, h]
  · rw [decodeOp_eq_none_of_major_F h]; simp [h]
  · have hother : ∀ k ∈ fullMajors,
        k ≠ 0x0#4 ∧ k ≠ 0x5#4 ∧ k ≠ 0x8#4 ∧ k ≠ 0x9#4 ∧ k ≠ 0xE#4 ∧ k ≠ 0xF#4 := by decide
    simp [decodeOp_ne_none_of_fullMajor h, hother _ h]

end Sys2Proof

namespace Sys2Proof.Machine

/-! ### What a fetch answers (spec/40_core_cycle.md R101) -/

section
variable {s : State} {w : Word} (hcore : s.core = .fetchDecode) (hin : s.pc.toNat + 2 ≤ memSize s.cfg)
  (hword : s.mem.readWord s.pc.toNat = w)
include hcore hin hword

theorem cycle_fetch_illegal (hd : decodeOp s.cfg.fx0aMode w = none) :
    cycle s = raise (.unknownOpcode w s.pc) { s with vx := fieldX w, vy := fieldY w } := by
  subst hword
  obtain ⟨hout, -⟩ | ⟨-, w, rfl, ⟨-, hraise⟩ | ⟨o, hrow, -⟩⟩ := fetchDecode_cases s
  · omega
  · simpa [cycle, hcore] using hraise
  · simp [hd] at hrow

theorem cycle_fetch_legal {o : Op} (hd : decodeOp s.cfg.fx0aMode w = some o) :
    cycle s = .next ({ s with
      vx := fieldX w, vy := fieldY w
      dec := { word := w, op := some o, phase := .one }
      pc := s.pc + 2
      core := .execute }.report (cyc s.cfg (fetchEntry w))) := by
  subst hword
  obtain ⟨hout, -⟩ | ⟨-, w, rfl, ⟨hnone, -⟩ | ⟨p, hrow, hnext⟩⟩ := fetchDecode_cases s
  · omega
  · simp [hd] at hnone
  · cases hd.symm.trans hrow
    simpa [cycle, hcore] using hnext

end

/-- The fetch cost depends on the major opcode only (spec/30_encoding.md R92). -/
theorem cyc_fetchEntry (c : Config) (w : Word) :
    cyc c (fetchEntry w) = if fieldOp w = 0 then 40 else 68 := by
  unfold fetchEntry
  split <;> rfl

/-- Settles O4: the list by major opcode, and the fetch's answer to a word without a row. -/
theorem illegalWordsAreTheListedOnes : Obligations.IllegalWordsAreTheListedOnes := by
  refine fun mode w => ⟨decodeOp_eq_none_iff_listed mode w, ?_⟩
  rintro hnone s hcore rfl hin hword
  exact ⟨_, cycle_fetch_illegal hcore hin hword hnone, rfl⟩

/-- Settles O6: the state a fetch of a legal word leaves, and the rows of major opcode 0. -/
theorem fetchLatchesTheWord : Obligations.FetchLatchesTheWord := by
  intro s w o hcore hin hword hd
  have hzero (h : fieldOp w = 0) : o = .cls ∨ o = .ret := by
    have hrow := mem_ofMajor_of_decodeOp hd
    rw [h, Op.ofMajor_0] at hrow
    simpa using hrow
  refine ⟨_, cycle_fetch_legal hcore hin hword.symm hd, rfl, rfl, rfl, rfl, rfl, cyc_fetchEntry _ _, hzero,
    fun _ => rfl, rfl, ?_⟩
  simp [Frame]

end Sys2Proof.Machine

namespace Sys2Proof.Machine

/-! ### The wait (spec/40_core_cycle.md R104) -/

/-- The scheduler's bookkeeping leaves the core state alone. -/
@[simp] theorem afterCycle_core (s t : State) : (afterCycle s t).core = t.core := by
  obtain ⟨q, i, e⟩ := afterCycle_shape s t
  rw [e]

@[simp] theorem afterInterrupt_core (s t : State) : (afterInterrupt s t).core = t.core := by
  obtain ⟨q, i, e⟩ := afterInterrupt_shape s t
  rw [e]

theorem cycle_of_waitInterrupt {s : State} (hcore : s.core = .waitInterrupt) :
    cycle s = .next { s with cost := 1 } := by
  simp [cycle, hcore, waitCycle, State.report, cyc]

/-- Settles O10: by the two calls a step can be. A `cycle()` keeps the waiting state, and the interrupt
service is the transition to `Execute`. -/
theorem onlyInterruptEndsTheWait : Obligations.OnlyInterruptEndsTheWait := by
  refine ⟨fun s => cycle_of_waitInterrupt, fun s t hcore hstep => ?_⟩
  obtain ⟨-, ⟨hcall, u, hu, rfl⟩ | ⟨hcall, u, hu, rfl⟩⟩ := step_next hstep
  · exact .inr ⟨hcall, by rw [afterInterrupt_core, (interrupt_serviced hu).core, if_pos hcore]⟩
  · cases (cycle_of_waitInterrupt hcore).symm.trans hu
    exact .inl ⟨hcall, by rw [afterCycle_core, hcore]⟩

/-! ### The core state and the latch an execute leaves (spec/40_core_cycle.md R103, R105) -/

/-- `DRW` in phase one, when it answers: the wait, with phase two latched (R205). -/
theorem drwPhaseOne_core_phase {x n : Nibble} {s t : State} (h : drwPhaseOne x n s = .ok t) :
    t.core = .waitInterrupt ∧ t.dec.phase = .two := by
  obtain ⟨-, -, e⟩ | ⟨-, e⟩ := drwPhaseOne_cases x n s
  · cases e.symm.trans h
  · cases e.symm.trans h
    exact ⟨rfl, rfl⟩

/-- `DRW` in phase two writes memory and the cost only. -/
theorem drwPhaseTwo_core_dec {x y n : Nibble} {s t : State} (h : drwPhaseTwo x y n s = .ok t) :
    t.core = s.core ∧ t.dec = s.dec := by
  simp only [drwPhaseTwo, ok_bind, ok_return, Prod.exists] at h
  obtain ⟨u, c, hfold, rfl⟩ := h
  obtain ⟨m, rfl, -, -⟩ := foldlM_xorByte_shape hfold
  exact ⟨rfl, rfl⟩

theorem exec_drw_of_phase_one {x y n : Nibble} {s : State} (h : s.dec.phase = .one) :
    exec (.drw x y n) s = execute s (drwPhaseOne x n) := by
  rw [exec, execDrw, h]

theorem exec_drw_of_phase_two {x y n : Nibble} {s : State} (h : s.dec.phase = .two) :
    exec (.drw x y n) s = execute s (drwPhaseTwo x y n) := by
  rw [exec, execDrw, h]

/-- Every handler but `DRW`'s leaves the core state that EXECUTE set, and the latch. The cases are the
handlers' shapes: one access to memory, one poll, or register writes alone. -/
theorem exec_core_dec_of_ne_drw {i : Instr} {s t : State} (hop : i.op ≠ .drw) (h : exec i s = .next t) :
    t.core = .fetchDecode ∧ t.dec = s.dec := by
  cases i
  case drw => exact absurd rfl hop
  all_goals
    simp only [exec, execCls, execRet, execJp, execCall, execSeVB, execSneVB, execSeVV, execSneVV, execLdVB,
      execAddVB, execLdVV, execOrVV, execAndVV, execXorVV, execAddVV, execSubVV, execShrVV, execSubnVV,
      execShlVV, execLdIA, execJpV0, execRnd, execSkp, execSknp, execLdVDT, execLdVK, execLdDTV, execLdSTV,
      execAddIV, execLdFV, execLdBV, execLdMV, execLdVM] at h
    simp only [execute_eq_next, ok_bind, ok_return, memWrite_eq_ok, memRead_eq_ok, memReadWord_eq_ok,
      poll_eq_ok, Prod.exists] at h
  case cls | call | ldBV | ldMV | ret | ldVM =>
    obtain ⟨_, ⟨-, rfl⟩, rfl⟩ := h
    simp
  case skp | sknp =>
    obtain ⟨_, _, ⟨-, -, rfl⟩, rfl⟩ := h
    simp
  case ldVK =>
    obtain ⟨answer, _, ⟨-, -, rfl⟩, h⟩ := h
    cases answer <;> cases ok_return.1 h <;> exact ⟨rfl, rfl⟩
  all_goals
    subst h
    simp

theorem eq_drw_of_op {i : Instr} (h : i.op = .drw) : ∃ x y n, i = .drw x y n := by
  cases i with
  | drw x y n => exact ⟨x, y, n, rfl⟩
  | _ => cases h

/-- Settles O11: by the two phases of `DRW`, and the handlers that are not `DRW`'s. -/
theorem onlyDrawPhaseOneWaits : Obligations.OnlyDrawPhaseOneWaits := by
  intro i s t h
  by_cases hop : i.op = .drw
  · obtain ⟨x, y, n, rfl⟩ := eq_drw_of_op hop
    cases hphase : s.dec.phase with
    | one =>
      rw [exec_drw_of_phase_one hphase, execute_eq_next] at h
      exact ⟨fun _ => drwPhaseOne_core_phase h, fun hnot => absurd ⟨rfl, rfl⟩ hnot⟩
    | two =>
      rw [exec_drw_of_phase_two hphase, execute_eq_next] at h
      exact ⟨nofun, fun _ => drwPhaseTwo_core_dec h⟩
  · exact ⟨fun hdraw => absurd hdraw.1 hop, fun _ => exec_core_dec_of_ne_drw hop h⟩

end Sys2Proof.Machine

namespace Sys2Proof.Machine

/-! ### Numbers of bytes and address fields (spec/20_memory.md R56, spec/30_encoding.md R81) -/

theorem toNat_hiByte (w : Word) : (hiByte w).toNat = w.toNat / 256 := by
  have := w.isLt
  rw [hiByte, BitVec.extractLsb'_toNat, Nat.shiftRight_eq_div_pow, Nat.mod_eq_of_lt (by omega)]

theorem toNat_loByte (w : Word) : (loByte w).toNat = w.toNat % 256 := by
  rw [loByte, BitVec.extractLsb'_toNat, Nat.shiftRight_zero]

theorem toNat_zextAddr (nnn : Addr12) : (zextAddr nnn).toNat = nnn.toNat := by
  have := nnn.isLt
  rw [zextAddr, BitVec.toNat_setWidth, Nat.mod_eq_of_lt (by omega)]

/-- The framebuffer lies inside memory, so `CLS`'s write cannot fault (R52). -/
theorem displayArea_inside (c : Config) : displayAddr c + displaySize ≤ memSize c := by
  have := memSize_ge c
  unfold displayAddr displaySize
  omega

/-- A read after a write of one byte `n` times over. -/
theorem Memory.read_writeBytes_replicate (m : Memory) (a n : Nat) (v : Byte) (b : Nat) :
    (m.writeBytes a (List.replicate n v)).read b = if a ≤ b ∧ b < a + n then v else m.read b := by
  rw [Memory.read_writeBytes, List.length_replicate]
  split
  · exact List.getD_replicate _ (by omega)
  · rfl

/-! ### What each control instruction answers (spec/41_control.md R120 to R123) -/

theorem exec_cls_of_inside {s : State} (h : s.displayPointer.toNat + displaySize ≤ memSize s.cfg) :
    exec .cls s = .next ({ s with
      core := .fetchDecode
      mem := s.mem.writeBytes s.displayPointer.toNat (List.replicate displaySize 0x00) }.report
        (cyc s.cfg .cls)) := by
  rw [exec, execCls, execute_eq_next]
  exact ok_bind.2 ⟨_, memWrite_ok (by rwa [List.length_replicate]), rfl⟩

theorem exec_ret_of_inside {s : State} (h : (s.sp + 2).toNat + 2 ≤ memSize s.cfg) :
    exec .ret s = .next ({ s with
      core := .fetchDecode
      pc := s.mem.readWord (s.sp + 2).toNat
      sp := s.sp + 2 }.report (cyc s.cfg .ret)) := by
  rw [exec, execRet, execute_eq_next]
  exact ok_bind.2 ⟨_, memReadWord_ok h, rfl⟩

theorem exec_ret_of_outside {s : State} (h : memSize s.cfg < (s.sp + 2).toNat + 2) :
    exec .ret s = raise (.memoryBounds (s.sp + 2).toNat 2 .read) s := by
  rw [exec, execRet]
  exact execute_error (error_bind.2 (.inl (memReadWord_error h)))

theorem exec_jp (nnn : Addr12) (s : State) :
    exec (.jp nnn) s = .next ({ s with core := .fetchDecode, pc := zextAddr nnn }.report (cyc s.cfg .jp)) :=
  rfl

theorem exec_call_of_inside {s : State} (nnn : Addr12) (h : s.sp.toNat + 2 ≤ memSize s.cfg) :
    exec (.call nnn) s = .next ({ s with
      core := .fetchDecode
      mem := s.mem.writeBytes s.sp.toNat [hiByte s.pc, loByte s.pc]
      sp := s.sp - 2
      pc := zextAddr nnn }.report (cyc s.cfg .call)) := by
  rw [exec, execCall, execute_eq_next]
  exact ok_bind.2 ⟨_, memWrite_ok h, rfl⟩

theorem exec_call_of_outside {s : State} (nnn : Addr12) (h : memSize s.cfg < s.sp.toNat + 2) :
    exec (.call nnn) s = raise (.memoryBounds s.sp.toNat 2 .write) s := by
  rw [exec, execCall]
  exact execute_error (error_bind.2 (.inl (memWrite_error h)))

/-! ### The obligations -/

/-- Settles O12: the one write is 256 zeros at `DISPLAY_ADDR`, and it lies inside memory. -/
theorem clearScreenZeroesTheDisplay : Obligations.ClearScreenZeroesTheDisplay := by
  intro s hdisplay
  have haddr : s.displayPointer.toNat = displayAddr s.cfg := by rw [hdisplay, displayAddr_toNat]
  have hexec := exec_cls_of_inside (s := s) (haddr ▸ displayArea_inside s.cfg)
  rw [haddr] at hexec
  refine ⟨_, hexec, fun k hk => ?zeroed, fun b hb => ?kept, ?frame⟩
  case zeroed =>
    rw [State.report_mem, Memory.read_writeBytes_replicate]
    exact if_pos ⟨Nat.le_add_right _ _, Nat.add_lt_add_left hk _⟩
  case kept =>
    rw [State.report_mem, Memory.read_writeBytes_replicate]
    exact if_neg hb
  case frame => simp [Executed, Frame]

/-- Settles O13: by the bound of the one read, which is made before `SP` and the pc are written. -/
theorem returnPopsTheAddress : Obligations.ReturnPopsTheAddress := by
  intro s a ha
  have hsp : (s.sp + 2).toNat = a := by rw [ha, BitVec.toNat_add]; rfl
  subst hsp
  refine ⟨fun h => ?_, exec_ret_of_outside⟩
  refine ⟨_, exec_ret_of_inside h, Memory.toNat_readWord _ _, rfl, fun _ => rfl, rfl, rfl, rfl, ?_⟩
  simp [Frame]

/-- Settles O14: `JP` accesses no memory, so it answers in every state. -/
theorem jumpSetsThePc : Obligations.JumpSetsThePc := by
  intro s nnn
  refine ⟨_, exec_jp nnn s, toNat_zextAddr nnn, rfl, fun _ => rfl, rfl, rfl, rfl, ?_⟩
  simp [Frame]

/-- Settles O15: by the bound of the one write, whose two bytes are the halves of the pc. -/
theorem callPushesTheReturnAddress : Obligations.CallPushesTheReturnAddress := by
  intro s nnn
  refine ⟨fun h => ?_, exec_call_of_outside nnn⟩
  refine ⟨_, exec_call_of_inside nnn h, ?high, ?low, fun b hb => Memory.read_writeBytes_outside _ _ _ hb, rfl,
    toNat_zextAddr nnn, rfl, rfl, rfl, rfl, ?frame⟩
  case high => simp [Memory.read_writeBytes, toNat_hiByte]
  case low => simp [Memory.read_writeBytes, toNat_loByte]
  case frame => simp [Frame]

end Sys2Proof.Machine

namespace Sys2Proof.Machine

/-! ### What each compare skip answers (spec/42_skip.md R130 to R133) -/

theorem exec_seVB (x : Nibble) (kk : Byte) (s : State) :
    exec (.seVB x kk) s = .next (skipIf (decide (s.v x = kk)) .seVB { s with core := .fetchDecode }) :=
  rfl

theorem exec_sneVB (x : Nibble) (kk : Byte) (s : State) :
    exec (.sneVB x kk) s = .next (skipIf (decide (s.v x ≠ kk)) .sneVB { s with core := .fetchDecode }) := by
  rw [decide_not]
  rfl

theorem exec_seVV (x y : Nibble) (s : State) :
    exec (.seVV x y) s = .next (skipIf (decide (s.v x = s.v y)) .seVV { s with core := .fetchDecode }) :=
  rfl

theorem exec_sneVV (x y : Nibble) (s : State) :
    exec (.sneVV x y) s = .next (skipIf (decide (s.v x ≠ s.v y)) .sneVV { s with core := .fetchDecode }) := by
  rw [decide_not]
  rfl

/-- An execute whose handler is a skip on `p` moves the pc over one word exactly when `p` holds, at that
outcome's cost, and keeps the rest. -/
theorem skip_meets_frame {s : State} {i : Instr} {p : Prop} [Decidable p] {entry : Bool → CycEntry}
    (h : exec i s = .next (skipIf (decide p) entry { s with core := .fetchDecode })) :
    ∃ t, exec i s = .next t ∧ t.pc = (if p then s.pc + 2 else s.pc) ∧
      MemKept s t ∧ t.i = s.i ∧ Executed s t (entry (decide p)) := by
  refine ⟨_, h, ?pc, fun a => ?memory, skipIf_i _ _ _, ?frame⟩
  case pc => simp
  case memory => rw [skipIf_mem]
  case frame => simp [Executed, Frame]

/-- R288's constraint on a compare skip. -/
theorem openCost_lt_skipCost (c : Config) (noSkip skip : CycEntry) : openCost c noSkip < skipCost c noSkip skip :=
  Nat.lt_of_lt_of_le (Nat.lt_succ_self _) (Nat.le_max_right _ _)

/-! ### The obligations -/

/-- Settles O16: both handlers are one skip on the comparison with the immediate. -/
theorem immediateComparesSkip : Obligations.ImmediateComparesSkip := fun s x kk =>
  ⟨skip_meets_frame (exec_seVB x kk s), skip_meets_frame (exec_sneVB x kk s),
    openCost_lt_skipCost _ _ _, openCost_lt_skipCost _ _ _⟩

/-- Settles O17: both handlers are one skip on the comparison of the two registers, `X = Y` included. -/
theorem registerComparesSkip : Obligations.RegisterComparesSkip := fun s x y =>
  ⟨skip_meets_frame (exec_seVV x y s), skip_meets_frame (exec_sneVV x y s),
    openCost_lt_skipCost _ _ _, openCost_lt_skipCost _ _ _⟩

end Sys2Proof.Machine

namespace Sys2Proof.Machine

/-! ### The variable bank after a register write (spec/10_state.md R20 to R22, spec/43_arith.md R141) -/

theorem bankIs_setV (s : State) (x : Nibble) (b : Byte) :
    BankIs s (s.setV x b) (fun r => if r = x then b else s.v r) :=
  ⟨fun r => v_setV s x r b, fun _ => read_setV_outside s x b⟩

/-- A logic instruction's result, then its flag rule (R145, decision D14). -/
theorem bankIs_logicFlag_setV (s : State) (x : Nibble) (b : Byte) :
    BankIs s (logicFlag (s.setV x b))
      (fun r => if r = 0xF ∧ s.cfg.logicVf = .reset then 0 else if r = x then b else s.v r) := by
  refine ⟨fun r => ?registers, fun a ha => ?outside⟩
  case registers => rw [v_logicFlag, v_setV, State.setV_cfg]
  case outside => rw [read_logicFlag_outside (s.setV x b) ha, read_setV_outside s x b ha]

theorem bankIs_setResultFlag (s : State) (x : Nibble) (b : Byte) (f : Bool) :
    BankIs s (setResultFlag x b f s) (fun r => if r = 0xF then flagByte f else if r = x then b else s.v r) :=
  ⟨fun r => v_setResultFlag s x b f r, fun _ => read_setResultFlag_outside s x b f⟩

/-- `logicFlag` writes memory alone. -/
theorem logicFlag_eq (s : State) : logicFlag s = { s with mem := (logicFlag s).mem } := by
  unfold logicFlag
  split <;> rfl

/-! ### What each arithmetic and logic instruction answers (R142 to R152) -/

section
variable (x y : Nibble) (kk : Byte) (s : State)

theorem exec_ldVB : exec (.ldVB x kk) s =
    .next (({ s with core := .fetchDecode }.setV x kk).report (cyc s.cfg .ldVB)) := rfl

theorem exec_addVB : exec (.addVB x kk) s =
    .next (({ s with core := .fetchDecode }.setV x (s.v x + kk)).report (cyc s.cfg .addVB)) := rfl

theorem exec_ldVV : exec (.ldVV x y) s =
    .next (({ s with core := .fetchDecode }.setV x (s.v y)).report (cyc s.cfg .aluLd)) := rfl

theorem exec_orVV : exec (.orVV x y) s =
    .next ((logicFlag ({ s with core := .fetchDecode }.setV x (s.v x ||| s.v y))).report
      (cyc s.cfg .aluOr)) := rfl

theorem exec_andVV : exec (.andVV x y) s =
    .next ((logicFlag ({ s with core := .fetchDecode }.setV x (s.v x &&& s.v y))).report
      (cyc s.cfg .aluAnd)) := rfl

theorem exec_xorVV : exec (.xorVV x y) s =
    .next ((logicFlag ({ s with core := .fetchDecode }.setV x (s.v x ^^^ s.v y))).report
      (cyc s.cfg .aluXor)) := rfl

theorem exec_addVV : exec (.addVV x y) s =
    .next ((setResultFlag x (s.v x + s.v y) (carryOut (s.v x) (s.v y)) { s with core := .fetchDecode }).report
      (cyc s.cfg .aluAdd)) := rfl

theorem exec_subVV : exec (.subVV x y) s =
    .next ((setResultFlag x (s.v x - s.v y) (noBorrow (s.v x) (s.v y)) { s with core := .fetchDecode }).report
      (cyc s.cfg .aluSub)) := rfl

theorem exec_shrVV : exec (.shrVV x y) s =
    .next ((setResultFlag x (s.v y >>> 1) (rightShiftOut (s.v y)) { s with core := .fetchDecode }).report
      (cyc s.cfg .aluShr)) := rfl

theorem exec_subnVV : exec (.subnVV x y) s =
    .next ((setResultFlag x (s.v y - s.v x) (noBorrow (s.v y) (s.v x)) { s with core := .fetchDecode }).report
      (cyc s.cfg .aluSubn)) := rfl

theorem exec_shlVV : exec (.shlVV x y) s =
    .next ((setResultFlag x (s.v y <<< 1) (leftShiftOut (s.v y)) { s with core := .fetchDecode }).report
      (cyc s.cfg .aluShl)) := rfl

end

/-! ### The frame of a bank write -/

section
variable {s : State} {i : Instr} {entry : CycEntry}

/-- An execute that writes the bank and reports a cost keeps the pc, `I` and the rest. -/
theorem bankWrite_meets_frame {u : State} {f : Nibble → Byte}
    (h : exec i s = .next (u.report (cyc s.cfg entry)))
    (hu : u = { s with core := .fetchDecode, mem := u.mem }) (hbank : BankIs s u f) :
    ∃ t, exec i s = .next t ∧ BankIs s t f ∧ t.pc = s.pc ∧ t.i = s.i ∧ Executed s t entry := by
  refine ⟨_, h, hbank, ?pc, ?index, ?frame⟩
  case pc => rw [State.report_pc, hu]
  case index => rw [State.report_i, hu]
  case frame =>
    rw [hu]
    simp [Executed, Frame]

/-- One register, no flag; the statements give the byte as a number. -/
theorem setV_meets_frame {x : Nibble} {b result : Byte}
    (h : exec i s = .next (({ s with core := .fetchDecode }.setV x b).report (cyc s.cfg entry)))
    (hresult : b = result) :
    ∃ t, exec i s = .next t ∧ BankIs s t (fun r => if r = x then result else s.v r) ∧
      t.pc = s.pc ∧ t.i = s.i ∧ Executed s t entry := by
  subst hresult
  exact bankWrite_meets_frame h rfl (bankIs_setV { s with core := .fetchDecode } x b)

theorem logic_meets_frame {x : Nibble} {b : Byte}
    (h : exec i s = .next ((logicFlag ({ s with core := .fetchDecode }.setV x b)).report (cyc s.cfg entry))) :
    ∃ t, exec i s = .next t ∧
      BankIs s t (fun r => if r = 0xF ∧ s.cfg.logicVf = .reset then 0 else if r = x then b else s.v r) ∧
      t.pc = s.pc ∧ t.i = s.i ∧ Executed s t entry :=
  bankWrite_meets_frame h (logicFlag_eq _) (bankIs_logicFlag_setV { s with core := .fetchDecode } x b)

/-- A result and then a flag; the statements give both as numbers. -/
theorem setResultFlag_meets_frame {x : Nibble} {b result flag : Byte} {f : Bool}
    (h : exec i s = .next ((setResultFlag x b f { s with core := .fetchDecode }).report (cyc s.cfg entry)))
    (hresult : b = result) (hflag : flagByte f = flag) :
    ∃ t, exec i s = .next t ∧
      BankIs s t (fun r => if r = 0xF then flag else if r = x then result else s.v r) ∧
      t.pc = s.pc ∧ t.i = s.i ∧ Executed s t entry := by
  subst hresult hflag
  exact bankWrite_meets_frame h rfl (bankIs_setResultFlag { s with core := .fetchDecode } x b f)

end

/-! ### Byte arithmetic and flags as numbers (R143, R148 to R152) -/

theorem byte_add_eq (a b : Byte) : a + b = BitVec.ofNat 8 ((a.toNat + b.toNat) % 256) :=
  BitVec.eq_of_toNat_eq (by simp)

theorem byte_sub_eq (a b : Byte) : a - b = BitVec.ofNat 8 ((256 + a.toNat - b.toNat) % 256) := by
  have := b.isLt
  apply BitVec.eq_of_toNat_eq
  rw [BitVec.toNat_sub, BitVec.toNat_ofNat]
  omega

theorem byte_shiftRight_one_eq (b : Byte) : b >>> 1 = BitVec.ofNat 8 (b.toNat / 2) := by
  have := b.isLt
  apply BitVec.eq_of_toNat_eq
  rw [BitVec.toNat_ushiftRight, BitVec.toNat_ofNat, Nat.shiftRight_eq_div_pow]
  omega

theorem byte_shiftLeft_one_eq (b : Byte) : b <<< 1 = BitVec.ofNat 8 (2 * b.toNat % 256) := by
  apply BitVec.eq_of_toNat_eq
  rw [BitVec.toNat_shiftLeft, BitVec.toNat_ofNat, Nat.shiftLeft_eq]
  omega

theorem flagByte_decide (p : Prop) [Decidable p] : flagByte (decide p) = if p then 1 else 0 := by
  simp only [flagByte, decide_eq_true_eq]

/-- A bit of a byte, as a flag, is the number the bit stands for. -/
theorem flagByte_getLsbD (b : Byte) (k : Nat) :
    flagByte (b.getLsbD k) = BitVec.ofNat 8 (b.toNat / 2 ^ k % 2) := by
  rw [← Nat.toNat_testBit, BitVec.testBit_toNat]
  cases b.getLsbD k <;> rfl

theorem flagByte_rightShiftOut (b : Byte) : flagByte (rightShiftOut b) = BitVec.ofNat 8 (b.toNat % 2) := by
  rw [rightShiftOut, flagByte_getLsbD, Nat.pow_zero, Nat.div_one]

theorem flagByte_leftShiftOut (b : Byte) : flagByte (leftShiftOut b) = BitVec.ofNat 8 (b.toNat / 128) := by
  have := b.isLt
  rw [leftShiftOut, flagByte_getLsbD, show 2 ^ 7 = 128 from rfl, Nat.mod_eq_of_lt (by omega)]

/-! ### The obligations -/

/-- Settles O18: both handlers write one register and no flag. -/
theorem immediateLoadAndAdd : Obligations.ImmediateLoadAndAdd := fun s x kk =>
  ⟨setV_meets_frame (exec_ldVB x kk s) rfl, setV_meets_frame (exec_addVB x kk s) (byte_add_eq _ _)⟩

/-- Settles O19: one register write, `X = Y` included. -/
theorem registerCopy : Obligations.RegisterCopy := fun s x y => setV_meets_frame (exec_ldVV x y s) rfl

/-- Settles O20: the three handlers differ in the bitwise operation alone, and share the flag rule. -/
theorem logicInstructions : Obligations.LogicInstructions := fun s x y =>
  ⟨logic_meets_frame (exec_orVV x y s), logic_meets_frame (exec_andVV x y s),
    logic_meets_frame (exec_xorVV x y s)⟩

/-- Settles O21: `VF` is written last, so the carry survives when `X = F`. -/
theorem addSetsTheCarry : Obligations.AddSetsTheCarry := fun s x y =>
  setResultFlag_meets_frame (exec_addVV x y s) (byte_add_eq _ _) (flagByte_decide _)

/-- Settles O22: the same subtraction with its operands in either order. -/
theorem subtractSetsNoBorrow : Obligations.SubtractSetsNoBorrow := by
  rintro s x y _ _ rfl rfl
  exact ⟨setResultFlag_meets_frame (exec_subVV x y s) (byte_sub_eq _ _) (flagByte_decide _),
    setResultFlag_meets_frame (exec_subnVV x y s) (byte_sub_eq _ _) (flagByte_decide _)⟩

/-- Settles O23: the flag is the bit of the old `V[Y]` that the shift drops. -/
theorem shiftsTakeVyAndDropABit : Obligations.ShiftsTakeVyAndDropABit := by
  rintro s x y _ rfl
  exact ⟨setResultFlag_meets_frame (exec_shrVV x y s) (byte_shiftRight_one_eq _) (flagByte_rightShiftOut _),
    setResultFlag_meets_frame (exec_shlVV x y s) (byte_shiftLeft_one_eq _) (flagByte_leftShiftOut _)⟩

end Sys2Proof.Machine

namespace Sys2Proof.Machine

/-! ### Numbers of index addends, glyphs and digits (spec/44_memory_index.md R161 to R164) -/

theorem toNat_zextByte (b : Byte) : (zextByte b).toNat = b.toNat := by
  have := b.isLt
  rw [zextByte, BitVec.toNat_setWidth, Nat.mod_eq_of_lt (by omega)]

/-- `I` moved on by a count of bytes wraps at 16 bits (R165, R166). -/
theorem toNat_add_ofNat (w : Word) (n : Nat) : (w + BitVec.ofNat 16 n).toNat = (w.toNat + n) % 65536 := by
  rw [BitVec.toNat_add, BitVec.toNat_ofNat, Nat.add_mod_mod]

theorem toNat_add_zextByte (w : Word) (b : Byte) : (w + zextByte b).toNat = (w.toNat + b.toNat) % 65536 := by
  rw [BitVec.toNat_add, toNat_zextByte]

/-- A 12-bit address and a byte sum below 2^16, so `JP V0` never wraps (decision D37). -/
theorem toNat_zextAddr_add_zextByte (nnn : Addr12) (b : Byte) :
    (zextAddr nnn + zextByte b).toNat = nnn.toNat + b.toNat := by
  have := nnn.isLt
  have := b.isLt
  rw [toNat_add_zextByte, toNat_zextAddr, Nat.mod_eq_of_lt (by omega)]

theorem pageCrossed_eq (base : Word) (v : Byte) :
    pageCrossed base v = decide (base.toNat % 256 + v.toNat > 0xFF) := by
  rw [pageCrossed, toNat_loByte]

theorem toNat_keyOf (v : Byte) : (keyOf v).toNat = v.toNat % 16 := by
  rw [keyOf, BitVec.extractLsb'_toNat, Nat.shiftRight_zero]

/-- The high nibble of a glyph's register is ignored (R163). -/
theorem some_fontAddrOf (c : Config) (v : Byte) : some (fontAddrOf c v) = c.fontAddr[v.toNat % 16]? := by
  rw [fontAddrOf, ← toNat_keyOf, Vector.getElem?_eq_getElem]

/-- R288's constraint on the page crossing of `ADD I, Vx`. -/
theorem cyc_addIV_ne (c : Config) : cyc c (.addIV false) ≠ cyc c (.addIV true) := by
  simp only [cyc]
  split <;> omega

/-- Each digit fits its byte (R164). -/
theorem map_toNat_bcdDigits (v : Byte) :
    (bcdDigits v).map BitVec.toNat = [v.toNat / 100, v.toNat / 10 % 10, v.toNat % 10] := by
  have := v.isLt
  simp only [bcdDigits, List.map_cons, List.map_nil, BitVec.toNat_ofNat, List.cons.injEq, and_true]
  omega

theorem toNat_read_writeBytes_bcdDigits (m : Memory) (a : Nat) (v : Byte) {k : Nat} (hk : k < 3) :
    ((m.writeBytes a (bcdDigits v)).read (a + k)).toNat =
      [v.toNat / 100, v.toNat / 10 % 10, v.toNat % 10].getD k 0 := by
  rw [Memory.read_writeBytes_inside _ _ _ hk, ← map_toNat_bcdDigits]
  exact (List.getD_map _ 0 BitVec.toNat).symm

/-! ### Copies between memory and the variable bank (R165, R166, decision D30) -/

/-- A block of one memory, written to another: the source is a snapshot, so the ranges may overlap. -/
theorem Memory.read_writeBytes_readBytes (m src : Memory) (a b n c : Nat) :
    (m.writeBytes a (src.readBytes b n)).read c =
      if a ≤ c ∧ c < a + n then src.read (b + (c - a)) else m.read c := by
  rw [Memory.read_writeBytes, Memory.readBytes_length]
  split
  · exact Memory.readBytes_getD _ _ _ _ (by omega)
  · rfl

/-- A block of memory loaded into the first registers. -/
theorem bankIs_load {s t : State} {a n : Nat} (hn : n ≤ 16) (hcfg : t.cfg = s.cfg)
    (hmem : t.mem = s.mem.writeBytes (varAddr s.cfg) (s.mem.readBytes a n)) :
    BankIs s t (fun r => if r.toNat < n then s.mem.read (a + r.toNat) else s.v r) := by
  refine ⟨fun r => ?registers, fun b hb => ?outside⟩
  case registers =>
    simp only [State.v, hcfg, hmem, vAddr, Memory.read_writeBytes_readBytes, Nat.le_add_right, true_and,
      Nat.add_lt_add_iff_left, Nat.add_sub_cancel_left]
  case outside => rw [hmem, Memory.read_writeBytes_readBytes, if_neg (by omega)]

/-! ### What each memory and index instruction answers (R160 to R166) -/

theorem exec_ldIA (nnn : Addr12) (s : State) : exec (.ldIA nnn) s =
    .next ({ s with core := .fetchDecode, i := zextAddr nnn }.report (cyc s.cfg .ldIA)) := rfl

theorem exec_ldFV (x : Nibble) (s : State) : exec (.ldFV x) s =
    .next ({ s with core := .fetchDecode, i := fontAddrOf s.cfg (s.v x) }.report (cyc s.cfg .ldFV)) := rfl

theorem exec_addIV (x : Nibble) (s : State) : exec (.addIV x) s =
    .next ({ s with core := .fetchDecode, i := s.i + zextByte (s.v x) }.report
      (cyc s.cfg (.addIV (pageCrossed s.i (s.v x))))) := rfl

theorem exec_jpV0 (nnn : Addr12) (s : State) : exec (.jpV0 nnn) s =
    .next ({ s with core := .fetchDecode, pc := zextAddr nnn + zextByte (s.v 0) }.report
      (cyc s.cfg (.jpV0 (pageCrossed (zextAddr nnn) (s.v 0))))) := rfl

section
variable {s : State} (x : Nibble)

theorem exec_ldBV_of_inside (h : s.i.toNat + 3 ≤ memSize s.cfg) : exec (.ldBV x) s =
    .next ({ s with
      core := .fetchDecode
      mem := s.mem.writeBytes s.i.toNat (bcdDigits (s.v x)) }.report (cyc s.cfg (.ldBV (s.v x)))) := by
  rw [exec, execLdBV, execute_eq_next]
  exact ok_bind.2 ⟨_, memWrite_ok h, rfl⟩

theorem exec_ldBV_of_outside (h : memSize s.cfg < s.i.toNat + 3) :
    exec (.ldBV x) s = raise (.memoryBounds s.i.toNat 3 .write) s := by
  rw [exec, execLdBV]
  exact execute_error (error_bind.2 (.inl (memWrite_error h)))

theorem exec_ldMV_of_inside (h : s.i.toNat + (x.toNat + 1) ≤ memSize s.cfg) : exec (.ldMV x) s =
    .next ({ s with
      core := .fetchDecode
      mem := s.mem.writeBytes s.i.toNat (s.mem.readBytes (varAddr s.cfg) (x.toNat + 1))
      i := s.i + BitVec.ofNat 16 (x.toNat + 1) }.report (cyc s.cfg (.ldMV x))) := by
  rw [exec, execLdMV, execute_eq_next]
  exact ok_bind.2 ⟨_, memWrite_ok (by rwa [Memory.readBytes_length]), rfl⟩

theorem exec_ldMV_of_outside (h : memSize s.cfg < s.i.toNat + (x.toNat + 1)) :
    exec (.ldMV x) s = raise (.memoryBounds s.i.toNat (x.toNat + 1) .write) s := by
  have hwrite := memWrite_error (a := s.i.toNat) (bs := s.mem.readBytes (varAddr s.cfg) (x.toNat + 1))
    (s := { s with core := .fetchDecode }) (by rwa [Memory.readBytes_length])
  rw [Memory.readBytes_length] at hwrite
  rw [exec, execLdMV]
  exact execute_error (error_bind.2 (.inl hwrite))

theorem exec_ldVM_of_inside (h : s.i.toNat + (x.toNat + 1) ≤ memSize s.cfg) : exec (.ldVM x) s =
    .next ({ s with
      core := .fetchDecode
      mem := s.mem.writeBytes (varAddr s.cfg) (s.mem.readBytes s.i.toNat (x.toNat + 1))
      i := s.i + BitVec.ofNat 16 (x.toNat + 1) }.report (cyc s.cfg (.ldVM x))) := by
  rw [exec, execLdVM, execute_eq_next]
  exact ok_bind.2 ⟨_, memRead_ok h, rfl⟩

theorem exec_ldVM_of_outside (h : memSize s.cfg < s.i.toNat + (x.toNat + 1)) :
    exec (.ldVM x) s = raise (.memoryBounds s.i.toNat (x.toNat + 1) .read) s := by
  rw [exec, execLdVM]
  exact execute_error (error_bind.2 (.inl (memRead_error h)))

end

/-- An execute's state that differs in memory, the pc and `I` alone keeps the frame. -/
theorem executed_report {s : State} (m : Memory) (pc i : Word) (entry : CycEntry) :
    Executed s ({ s with core := .fetchDecode, mem := m, pc := pc, i := i }.report (cyc s.cfg entry)) entry := by
  simp [Executed, Frame]

/-! ### The obligations -/

/-- Settles O28: the bytes written are a snapshot of the first `X + 1` registers, and the one write's bound
decides. -/
theorem bulkSaveStoresTheRegisters : Obligations.BulkSaveStoresTheRegisters := by
  rintro s x _ rfl
  refine ⟨fun h => ?_, exec_ldMV_of_outside x⟩
  refine ⟨_, exec_ldMV_of_inside x h, fun r hr => ?stored, fun b hb => ?kept, toNat_add_ofNat _ _, rfl,
    executed_report _ _ _ _⟩
  case stored =>
    rw [State.report_mem, Memory.read_writeBytes_readBytes, if_pos (by omega), Nat.add_sub_cancel_left]
    rfl
  case kept => rw [State.report_mem, Memory.read_writeBytes_readBytes, if_neg hb]

/-- Settles O29: the bytes loaded are read before any register is written, and the one read's bound decides;
at most 16 bytes are loaded, so the bank holds them. -/
theorem bulkLoadReadsMemory : Obligations.BulkLoadReadsMemory := by
  rintro s x _ rfl
  refine ⟨fun h => ?_, exec_ldVM_of_outside x⟩
  exact ⟨_, exec_ldVM_of_inside x h, bankIs_load x.isLt rfl rfl, toNat_add_ofNat _ _, rfl,
    executed_report _ _ _ _⟩

/-- Settles O24: neither load accesses memory but for a register, so both answer in every state. -/
theorem indexLoads : Obligations.IndexLoads := fun s =>
  ⟨fun nnn => ⟨_, exec_ldIA nnn s, toNat_zextAddr nnn, rfl, fun _ => rfl, executed_report _ _ _ _⟩,
    fun x => ⟨_, exec_ldFV x s, some_fontAddrOf _ _, rfl, fun _ => rfl, executed_report _ _ _ _⟩⟩

/-- Settles O25: the addition is on 16 bits, and its carry out of bit 7 selects the cost. -/
theorem addIndexReportsPageCrossing : Obligations.AddIndexReportsPageCrossing := by
  intro s x
  rw [← pageCrossed_eq]
  exact ⟨_, exec_addIV x s, toNat_add_zextByte _ _, rfl, fun _ => rfl, executed_report _ _ _ _, cyc_addIV_ne _⟩

/-- Settles O26: `NNN + V[0]` is below 2^16, and its low bytes' carry selects the cost. -/
theorem jumpAddsV0 : Obligations.JumpAddsV0 := by
  intro s nnn
  rw [← toNat_zextAddr nnn, ← pageCrossed_eq, toNat_zextAddr]
  exact ⟨_, exec_jpV0 nnn s, toNat_zextAddr_add_zextByte _ _, rfl, fun _ => rfl, executed_report _ _ _ _⟩

/-- Settles O27: the digits are taken from the register before the one write, whose bound decides. -/
theorem decimalDigitsAreStored : Obligations.DecimalDigitsAreStored := by
  intro s x
  refine ⟨fun h => ?_, exec_ldBV_of_outside x⟩
  have hdigit (k : Nat) (hk : k < 3) := toNat_read_writeBytes_bcdDigits s.mem s.i.toNat (s.v x) hk
  exact ⟨_, exec_ldBV_of_inside x h, hdigit 0 (by decide), hdigit 1 (by decide), hdigit 2 (by decide),
    fun b hb => Memory.read_writeBytes_outside _ _ _ hb, rfl, rfl, executed_report _ _ _ _⟩

end Sys2Proof.Machine

namespace Sys2Proof.Machine

/-! ### The steps of the reference generator as numbers (spec/45_random.md R182) -/

theorem toNat_carryOut (a b : Byte) : (carryOut a b).toNat = (a.toNat + b.toNat) / 256 := by
  have := a.isLt
  have := b.isLt
  unfold carryOut
  by_cases h : a.toNat + b.toNat > 0xFF
  · rw [decide_eq_true h, Bool.toNat_true]
    omega
  · rw [decide_eq_false h, Bool.toNat_false]
    omega

/-- The halving: the carry goes into bit 7, which the shifted byte leaves free. -/
theorem toNat_shiftRight_carry (c : Bool) (b : Byte) :
    (flagByte c <<< 7 ||| b >>> 1).toNat = 128 * c.toNat + b.toNat / 2 := by
  have hfree : b.toNat / 2 < 2 ^ 7 := by have := b.isLt; omega
  have hcarry : (flagByte c <<< 7).toNat = c.toNat <<< 7 := by cases c <;> rfl
  rw [BitVec.toNat_or, hcarry, BitVec.toNat_ushiftRight, Nat.shiftRight_eq_div_pow, Nat.pow_one,
    ← Nat.shiftLeft_add_eq_or_of_lt hfree, Nat.shiftLeft_eq, Nat.mul_comm]

/-- The value drawn, from the sum `t` of the high byte and the table byte. -/
theorem toNat_rndReference_value {s1 : Word} {r : Byte} {t : Nat} (ht : t = s1.toNat / 256 + r.toNat) :
    (rndReference s1 r).2.toNat = (128 * (t / 256) + t % 256 / 2 + t % 256) % 256 := by
  have hsum : (hiByte s1 + r).toNat = t % 256 := by rw [BitVec.toNat_add, toNat_hiByte, ht]
  have hcarry : (carryOut (hiByte s1) r).toNat = t / 256 := by rw [toNat_carryOut, toNat_hiByte, ht]
  rw [rndReference, BitVec.toNat_add, toNat_shiftRight_carry, hsum, hcarry]

/-- The new seed is the value drawn over the low byte of the incremented seed. -/
theorem toNat_rndReference_seed (s1 : Word) (r : Byte) :
    (rndReference s1 r).1.toNat = 256 * (rndReference s1 r).2.toNat + s1.toNat % 256 := by
  rw [← toNat_loByte]
  exact toNat_wordOfBytes _ _

theorem rndFn_of_reference {c : Config} (h : c.rndFn = .reference) (seed : Word) (table : Byte → Byte) :
    rndFn c seed table = rndReference (seed + 1) (table (loByte (seed + 1))) := by
  rw [rndFn, h]

/-- A generator reads its table at one place (R181, property 3). -/
theorem rndFn_congr (c : Config) {seed : Word} {f g : Byte → Byte}
    (h : f (loByte (seed + 1)) = g (loByte (seed + 1))) : rndFn c seed f = rndFn c seed g := by
  simp only [rndFn, h]

/-- What `RND` answers (R180). -/
theorem exec_rnd (x : Nibble) (kk : Byte) (s : State) : exec (.rnd x kk) s =
    .next (({ s with
      core := .fetchDecode
      seed := (rndFn s.cfg s.seed (rndTable s)).1 }.setV x ((rndFn s.cfg s.seed (rndTable s)).2 &&& kk)).report
        (cyc s.cfg .rnd)) := rfl

/-! ### The obligations -/

/-- Settles O31: the index and the sum of the incremented seed are the statement's `s1 mod 256` and `t`, and
the rest is the arithmetic of the halving and the self-addition. -/
theorem referenceGeneratorArithmetic : Obligations.ReferenceGeneratorArithmetic := by
  rintro c seed table _ t _ _ _ href rfl ht rfl rfl rfl
  have hs1 : (seed + 1).toNat = (seed.toNat + 1) % 65536 := toNat_add_ofNat seed 1
  have hindex : BitVec.ofNat 8 ((seed + 1).toNat % 256) = loByte (seed + 1) := by
    rw [← toNat_loByte, BitVec.ofNat_toNat, BitVec.setWidth_eq]
  rw [← hs1, hindex] at ht
  rw [rndFn_of_reference href, toNat_rndReference_seed, toNat_rndReference_value ht, hs1]
  exact ⟨rfl, rfl⟩

/-- Settles O30: the draw writes the seed and one register, and the table is read at the one index. -/
theorem randomDrawsFromOneTableByte : Obligations.RandomDrawsFromOneTableByte := by
  refine ⟨?draw, fun c seed f g => rndFn_congr c⟩
  rintro s x kk _ rfl
  refine ⟨_, exec_rnd x kk s, rfl, bankIs_setV { s with core := .fetchDecode, seed := _ } x _, rfl, rfl, ?_⟩
  simp [Executed, Frame]

end Sys2Proof.Machine

namespace Sys2Proof.Machine

/-! ### The sprite's position as numbers (spec/47_sprite.md R201) -/

theorem toNat_spriteX (v : Byte) : (spriteX v).toNat = v.toNat % 64 :=
  Nat.and_two_pow_sub_one_eq_mod v.toNat 6

theorem spriteY_eq (v : Byte) : spriteY v = v.toNat % 32 :=
  Nat.and_two_pow_sub_one_eq_mod v.toNat 5

theorem spriteBit_eq (v : Byte) : spriteBit v = v.toNat % 8 := by
  have hlow : spriteBit v = (spriteX v).toNat % 8 := Nat.and_two_pow_sub_one_eq_mod (spriteX v).toNat 3
  rw [hlow, toNat_spriteX]
  omega

theorem spriteCol_eq (v : Byte) : spriteCol v = v.toNat % 64 / 8 := by
  rw [spriteCol, BitVec.toNat_ushiftRight, toNat_spriteX, Nat.shiftRight_eq_div_pow]

/-! ### The bytes of a shifted row (R203, R204) -/

/-- A byte shifted left by at most 8 fits a word. -/
theorem toNat_shiftedRow (row : Byte) (b : Nat) : (zextByte row <<< (8 - b)).toNat = row.toNat * 2 ^ (8 - b) := by
  have hpow : 2 ^ (8 - b) ≤ 2 ^ 8 := Nat.pow_le_pow_right (by decide) (Nat.sub_le _ _)
  have hfits : row.toNat * 2 ^ (8 - b) < 2 ^ 16 := calc
    _ ≤ row.toNat * 2 ^ 8 := Nat.mul_le_mul_left _ hpow
    _ < 2 ^ 16 := by have := row.isLt; omega
  rw [BitVec.toNat_shiftLeft, toNat_zextByte, Nat.shiftLeft_eq, Nat.mod_eq_of_lt hfits]

/-- The left byte is the row without its `b` low bits. -/
theorem toNat_hiByte_shiftedRow (row : Byte) {b : Nat} (hb : b ≤ 8) :
    (hiByte (zextByte row <<< (8 - b))).toNat = row.toNat / 2 ^ b := by
  have hsplit : 256 = 2 ^ b * 2 ^ (8 - b) := by rw [← Nat.pow_add, Nat.add_sub_cancel' hb]
  rw [toNat_hiByte, toNat_shiftedRow, hsplit, Nat.mul_div_mul_right _ _ (Nat.two_pow_pos _)]

theorem toNat_loByte_shiftedRow (row : Byte) (b : Nat) :
    (loByte (zextByte row <<< (8 - b))).toNat = row.toNat * 2 ^ (8 - b) % 256 := by
  rw [toNat_loByte, toNat_shiftedRow]

/-! ### What phase one answers (R203 to R205, R211) -/

section
variable {x y n : Nibble} {s : State} (hphase : s.dec.phase = .one)
include hphase

theorem exec_drw_phaseOne_of_inside (h : n = 0 ∨ s.i.toNat + n.toNat ≤ memSize s.cfg) :
    exec (.drw x y n) s = .next ({ s with
      mem := s.mem.writeBytes (workAddr s.cfg)
        (workBytes (s.mem.readBytes s.i.toNat n.toNat) (spriteBit (s.v x)))
      dec := { s.dec with phase := .two }
      core := .waitInterrupt }.report (cyc s.cfg (.drw1 n.toNat (spriteBit (s.v x))))) := by
  rw [exec_drw_of_phase_one hphase, execute_eq_next]
  rcases drwPhaseOne_cases x n { s with core := .fetchDecode } with ⟨hn, hout, -⟩ | ⟨-, hok⟩
  · exact absurd h (not_or.2 ⟨hn, Nat.not_le.2 hout⟩)
  · exact hok

theorem exec_drw_phaseOne_of_outside (hn : n ≠ 0) (h : memSize s.cfg < s.i.toNat + n.toNat) :
    exec (.drw x y n) s = raise (.memoryBounds s.i.toNat n.toNat .read) s := by
  rw [exec_drw_of_phase_one hphase]
  rcases drwPhaseOne_cases x n { s with core := .fetchDecode } with ⟨-, -, herror⟩ | ⟨hin, -⟩
  · exact execute_error herror
  · exact absurd hin (not_or.2 ⟨hn, Nat.not_le.2 h⟩)

end

/-! ### The bytes phase two draws (R206 to R210) -/

/-- The framebuffer bytes that phase two of `DRW` meets at `s`, each with its work byte. -/
def drawnBlits (s : State) (x y n : Nibble) : List (Nat × Byte) :=
  spriteBlits (displayAddr s.cfg) (spriteY (s.v y)) (spriteCol (s.v x)) n.toNat
    (s.mem.readBytes (workAddr s.cfg) (2 * n.toNat))

/-- The rows drawn are those above the bottom edge. -/
theorem rowsDrawn_eq (y n : Nat) : rowsDrawn y n = min n (32 - y) := by
  induction n with
  | zero => simp [rowsDrawn]
  | succ n ih =>
    have hsucc : rowsDrawn y (n + 1) = rowsDrawn y n + if y + n ≤ 31 then 1 else 0 := by
      unfold rowsDrawn rowOnScreen
      rw [List.range_succ, List.filter_append, List.length_append]
      split <;> simp [*]
    rw [hsucc, ih]
    split <;> omega

section
variable {s : State} {x y n : Nibble}

theorem drawnBlits_distinct : (drawnBlits s x y n).Pairwise fun a b => a.1 ≠ b.1 :=
  spriteBlits_distinct _ _ _ _ _ (spriteCol_le _)

/-- Every byte drawn is the statement's byte at some row and column of the screen. -/
theorem eq_drawnByte_of_mem_drawnBlits {bl : Nat × Byte} (h : bl ∈ drawnBlits s x y n) :
    ∃ r < 32, ∃ c < 8, bl = (displayAddr s.cfg + 8 * r + c, drawnByte s x y n r c) := by
  have hcol := spriteCol_le (s.v x)
  obtain ⟨k, hk, hrow, rfl | ⟨hright, rfl⟩⟩ := mem_spriteBlits.1 h
  · refine ⟨spriteY (s.v y) + k, by omega, spriteCol (s.v x), by omega, ?_⟩
    rw [Memory.readBytes_getD _ _ _ _ (by omega)]
    simp [drawnByte, ← spriteY_eq, ← spriteCol_eq, hk]
  · refine ⟨spriteY (s.v y) + k, by omega, spriteCol (s.v x) + 1, by omega, ?_⟩
    rw [Memory.readBytes_getD _ _ _ _ (by omega)]
    simp [drawnByte, ← spriteY_eq, ← spriteCol_eq, hk, Nat.add_assoc]

section
variable {r c : Nat} (hr : r < 32) (hc : c < 8)
include hr hc

theorem mem_drawnBlits_of_drawnByte_ne_zero (h : drawnByte s x y n r c ≠ 0) :
    (displayAddr s.cfg + 8 * r + c, drawnByte s x y n r c) ∈ drawnBlits s x y n := by
  simp only [drawnByte, ← spriteY_eq, ← spriteCol_eq] at h ⊢
  split at h <;> [skip; exact absurd rfl h]
  next hrow =>
    obtain ⟨k, rfl⟩ := Nat.exists_eq_add_of_le hrow.1
    rw [if_pos hrow, Nat.add_sub_cancel_left]
    refine mem_spriteBlits.2 ⟨k, by omega, by omega, ?_⟩
    rw [Memory.readBytes_getD _ _ _ _ (by omega), Memory.readBytes_getD _ _ _ _ (by omega)]
    split at h
    next hleft =>
      subst hleft
      exact .inl (by rw [if_pos rfl])
    next hleft =>
      split at h <;> [skip; exact absurd rfl h]
      next hright =>
        subst hright
        exact .inr ⟨by omega, by simp [Nat.add_assoc]⟩

/-- The XORs put the statement's byte into each byte of the screen, met or not. -/
theorem read_xorAll_drawnBlits (m : Memory) :
    (xorAll (drawnBlits s x y n) m).read (displayAddr s.cfg + 8 * r + c) =
      m.read (displayAddr s.cfg + 8 * r + c) ^^^ drawnByte s x y n r c := by
  by_cases hmet : ∃ bl ∈ drawnBlits s x y n, bl.1 = displayAddr s.cfg + 8 * r + c
  · obtain ⟨bl, hbl, haddr⟩ := hmet
    obtain ⟨r', hr', c', hc', rfl⟩ := eq_drawnByte_of_mem_drawnBlits hbl
    obtain ⟨rfl, rfl⟩ : r' = r ∧ c' = c := by simp only at haddr; omega
    exact read_xorAll_of_mem drawnBlits_distinct hbl
  · have hzero : drawnByte s x y n r c = 0 := by
      by_contra hne
      exact hmet ⟨_, mem_drawnBlits_of_drawnByte_ne_zero hr hc hne, rfl⟩
    rw [read_xorAll_of_notMem fun bl hbl haddr => hmet ⟨bl, hbl, haddr⟩, hzero]
    exact BitVec.xor_zero.symm

end

theorem read_xorAll_drawnBlits_outside (m : Memory) {a : Nat}
    (ha : ¬(displayAddr s.cfg ≤ a ∧ a < displayAddr s.cfg + 256)) :
    (xorAll (drawnBlits s x y n) m).read a = m.read a :=
  read_xorAll_of_notMem fun _ hbl haddr => ha (haddr ▸ spriteBlits_inside (spriteCol_le _) hbl)

/-- The collision flag in terms of the picture (R209): a byte that is not met draws no set bit. -/
theorem anyCollision_drawnBlits_iff :
    anyCollision (drawnBlits s x y n) s.mem = true ↔
      ∃ r < 32, ∃ c < 8, screenByte s r c &&& drawnByte s x y n r c ≠ 0 := by
  simp only [anyCollision, collides, List.any_eq_true, bne_iff_ne]
  constructor
  · rintro ⟨bl, hbl, hcollides⟩
    obtain ⟨r, hr, c, hc, rfl⟩ := eq_drawnByte_of_mem_drawnBlits hbl
    exact ⟨r, hr, c, hc, hcollides⟩
  · rintro ⟨r, hr, c, hc, hcollides⟩
    have hne : drawnByte s x y n r c ≠ 0 := fun hzero => hcollides (by rw [hzero]; exact BitVec.and_zero)
    exact ⟨_, mem_drawnBlits_of_drawnByte_ne_zero hr hc hne, hcollides⟩

end

/-! ### What phase two answers (R206 to R211) -/

/-- The variable bank lies below the framebuffer (R52). -/
theorem vAddr_lt_displayAddr (c : Config) (x : Nibble) : vAddr c x < displayAddr c := by
  have := memSize_ge c
  have := x.isLt
  unfold vAddr varAddr displayAddr
  omega

section
variable {x y n : Nibble} {s : State} (hphase : s.dec.phase = .two)
include hphase

theorem exec_drw_phaseTwo (hdisplay : s.displayPointer = BitVec.ofNat 16 (displayAddr s.cfg)) :
    exec (.drw x y n) s = .next (({ s with
      core := .fetchDecode
      mem := xorAll (drawnBlits s x y n) s.mem }.setV 0xF
        (flagByte (anyCollision (drawnBlits s x y n) s.mem))).report
      (cyc s.cfg (.drw2 n.toNat (rowsDrawn (spriteY (s.v y)) n.toNat)
        (rightBytesDrawn (spriteY (s.v y)) (spriteCol (s.v x)) n.toNat)))) := by
  rw [exec_drw_of_phase_two hphase, execute_eq_next]
  exact drwPhaseTwo_ok x y n { s with core := .fetchDecode } hdisplay

/-- Without rows there is no framebuffer access, wherever the display pointer points (R211). -/
theorem exec_drw_zero_phaseTwo :
    exec (.drw x y 0) s = .next (({ s with core := .fetchDecode }.setV 0xF 0).report
      (cyc s.cfg (.drw2 0 0 (rightBytesDrawn (spriteY (s.v y)) (spriteCol (s.v x)) 0)))) := by
  rw [exec_drw_of_phase_two hphase, execute_eq_next]
  rfl

end

/-! ### The obligations -/

/-- Settles O34: the bytes written are the halves of each shifted row, read before the write, and the bound of
the one read decides. -/
theorem drawPhaseOneFillsTheWorkArea : Obligations.DrawPhaseOneFillsTheWorkArea := by
  rintro s x y n _ hphase rfl
  rw [← spriteBit_eq]
  have hb : spriteBit (s.v x) ≤ 8 := (spriteBit_le _).trans (by decide)
  refine ⟨fun h => ?_, exec_drw_phaseOne_of_outside hphase⟩
  refine ⟨_, exec_drw_phaseOne_of_inside hphase h, fun k hk => ⟨?left, ?right⟩, fun a ha => ?kept, rfl, rfl, rfl,
    rfl, rfl, ?frame⟩
  case left =>
    rw [State.report_mem, Memory.read_writeBytes_inside _ _ _ (by simp; omega), workBytes_left _ _ _ (by simpa),
      Memory.readBytes_getD _ _ _ _ hk, toNat_hiByte_shiftedRow _ hb]
  case right =>
    rw [State.report_mem, Nat.add_assoc, Memory.read_writeBytes_inside _ _ _ (by simp; omega),
      workBytes_right _ _ _ (by simpa), Memory.readBytes_getD _ _ _ _ hk, toNat_loByte_shiftedRow]
  case kept => exact Memory.read_writeBytes_outside _ _ _ (by simpa using ha)
  case frame => simp [Frame]

/-- Settles O35: each byte of the screen gets the statement's byte, and `VF`, written last, lies in the bank
below the framebuffer. -/
theorem drawPhaseTwoXorsTheFramebuffer : Obligations.DrawPhaseTwoXorsTheFramebuffer := by
  rintro s x y n _ hphase hdisplay rfl
  refine ⟨_, exec_drw_phaseTwo hphase hdisplay, fun r hr c hc => ?screen, fun hhit => ?hit, fun hmiss => ?miss,
    fun v hv => ?registers, fun a ha hvf => ?kept, rfl, rfl, rfl, ?cost, ?frame⟩
  case screen =>
    have hflag : vAddr s.cfg 0xF < displayAddr s.cfg + 8 * r + c := calc
      _ < displayAddr s.cfg := vAddr_lt_displayAddr _ _
      _ ≤ _ := by omega
    rw [screenByte, State.report_mem, State.setV_mem, Memory.read_write]
    exact (if_neg hflag.ne').trans (read_xorAll_drawnBlits hr hc _)
  case hit => simp [anyCollision_drawnBlits_iff.2 hhit, flagByte]
  case miss =>
    have hnone : anyCollision (drawnBlits s x y n) s.mem = false := by
      rw [← Bool.not_eq_true, anyCollision_drawnBlits_iff]
      rintro ⟨r, hr, c, hc, hcollides⟩
      exact hcollides (hmiss r hr c hc)
    simp [hnone, flagByte]
  case registers =>
    have hbelow := vAddr_lt_displayAddr s.cfg v
    rw [v_report, v_setV, if_neg hv]
    exact read_xorAll_drawnBlits_outside (a := vAddr s.cfg v) _ (by omega)
  case kept =>
    rw [State.report_mem, State.setV_mem, Memory.read_write, if_neg hvf]
    exact read_xorAll_drawnBlits_outside _ ha
  case cost => rw [State.report_cost, rightBytesDrawn, rowsDrawn_eq, spriteY_eq, spriteCol_eq]
  case frame => simp [Frame]

/-- Settles O37: phase one's write is empty, and phase two writes the flag alone. -/
theorem drawOfZeroRowsOnlyClearsVf : Obligations.DrawOfZeroRowsOnlyClearsVf := by
  intro s x y
  refine ⟨fun hphase => ?one, fun hphase => ?two⟩
  case one => exact ⟨_, exec_drw_phaseOne_of_inside hphase (.inl rfl), fun _ => rfl, rfl, rfl⟩
  case two => exact ⟨_, exec_drw_zero_phaseTwo hphase, rfl, bankIs_setV { s with core := .fetchDecode } 0xF 0⟩

end Sys2Proof.Machine

namespace Sys2Proof.Machine

/-! ### What the general timer instructions answer (R220, R221) -/

section
variable (x : Nibble) (s : State)

theorem exec_ldVDT : exec (.ldVDT x) s =
    .next (({ s with core := .fetchDecode }.setV x s.generalTimer).report (cyc s.cfg .ldVDT)) := rfl

theorem exec_ldDTV : exec (.ldDTV x) s =
    .next ({ s with core := .fetchDecode, generalTimer := s.v x }.report (cyc s.cfg .ldDTV)) := rfl

end

/-! ### The obligations -/

/-- Settles O38: the read is one register write of the timer, and the set leaves memory alone and keeps the
frame of the state with the new timer. -/
theorem generalTimerIsReadAndSet : Obligations.GeneralTimerIsReadAndSet := by
  intro s x
  refine ⟨setV_meets_frame (exec_ldVDT x s) rfl, ?set⟩
  case set =>
    have hframe := executed_report (s := { s with generalTimer := s.v x }) s.mem s.pc s.i .ldDTV
    exact ⟨_, exec_ldDTV x s, rfl, fun _ => rfl, rfl, rfl, hframe⟩

end Sys2Proof.Machine

namespace Sys2Proof.Machine

/-! ### What an answered interrupt writes (spec/60_exceptions.md R236, R238, R239, R241) -/

/-- The state an interrupt leaves when the draw answers ok (R236). -/
def frameServiced (s : State) : State :=
  resumeDraw (tickTone (tickGeneral
    ({ s.drawn (s.mem.readBytes s.displayPointer.toNat displaySize) with
      seed := s.seed + 1 }.report (cyc s.cfg .intBase))))

/-- An interrupt answers next exactly when the framebuffer lies in memory and the draw is ok, and it has
one answer. -/
theorem interrupt_eq_next_iff {s t : State} :
    interrupt s = .next t ↔
      s.displayPointer.toNat + displaySize ≤ memSize s.cfg ∧ s.inputs.nextDraw = .ok ∧ t = frameServiced s := by
  obtain ⟨hout, e⟩ | ⟨hin, ⟨hdraw, e⟩ | ⟨hdraw, e⟩⟩ := interrupt_cases s
  · simp [e, raise, hout]
  · simp [e, raise, hdraw]
  · simp [e, hin, hdraw, frameServiced, eq_comm]

section
variable (s : State)

@[simp] theorem frameServiced_seed : (frameServiced s).seed = s.seed + 1 := by
  simp [frameServiced]

@[simp] theorem frameServiced_generalTimer :
    (frameServiced s).generalTimer.toNat = s.generalTimer.toNat - 1 := by
  simp [frameServiced]

@[simp] theorem frameServiced_toneTimer : (frameServiced s).toneTimer.toNat = s.toneTimer.toNat - 1 := by
  simp [frameServiced]

/-- Each bonus is decided by its timer as it stands before the call (R239). -/
theorem frameServiced_cost :
    (frameServiced s).cost =
      1831 + (if s.generalTimer = 0 then 0 else 8) + (if s.toneTimer = 0 then 0 else 4) := by
  rw [frameServiced, resumeDraw_cost, tickTone_cost, tickGeneral_cost, tickGeneral_toneTimer]
  rfl

end

/-! ### The obligations -/

/-- Settles O40: the framebuffer lies in memory, so the interrupt answers; it writes the seed and the timers,
and `Serviced` says the rest. -/
theorem interruptServicesTheFrame : Obligations.InterruptServicesTheFrame := by
  intro s hdisplay hdraw
  have hin : s.displayPointer.toNat + displaySize ≤ memSize s.cfg := by
    rw [hdisplay, displayAddr_toNat]
    exact displayArea_inside s.cfg
  have hnext : interrupt s = .next (frameServiced s) := interrupt_eq_next_iff.2 ⟨hin, hdraw, rfl⟩
  have kept := interrupt_serviced hnext
  refine ⟨_, hnext, ?seed, frameServiced_generalTimer s, frameServiced_toneTimer s, kept.core, kept.mem, kept.pc,
    kept.i, ?frame⟩
  case seed => rw [frameServiced_seed, BitVec.toNat_add]; rfl
  case frame =>
    exact ⟨kept.sp, rfl, rfl, rfl, kept.display, kept.dec, kept.vx, kept.vy, kept.halted, kept.cfg, kept.sched,
      rfl, rfl⟩

/-- Settles O41: the four values are the four combinations of a running and a stopped timer. -/
theorem interruptCostCountsTheTimers : Obligations.InterruptCostCountsTheTimers := by
  intro s t h
  obtain ⟨-, -, rfl⟩ := interrupt_eq_next_iff.1 h
  simp only [frameServiced_cost, ne_eq, ite_not]
  split_ifs <;> decide

end Sys2Proof.Machine

namespace Sys2Proof

/-! ### The row a word decodes to (spec/40_core_cycle.md R102, spec/30_encoding.md R84) -/

theorem Op.mem_all (o : Op) : o ∈ Op.all := by
  cases o <;> decide

/-- Two rows whose fixed bits agree where both masks have them are one row. -/
theorem Op.eq_of_patterns_agree : ∀ o ∈ Op.all, ∀ p ∈ Op.all,
    o.pattern &&& p.mask = p.pattern &&& o.mask → o = p := by
  decide

/-- No word fits two rows. -/
theorem Op.eq_of_fits {o p : Op} {w : Word} (ho : w &&& o.mask = o.pattern) (hp : w &&& p.mask = p.pattern) :
    o = p := by
  refine Op.eq_of_patterns_agree o o.mem_all p p.mem_all ?_
  rw [← ho, ← hp, BitVec.and_assoc, BitVec.and_assoc, BitVec.and_comm o.mask]

/-- A row that decoding finds is available and fits. -/
theorem fits_of_decodeOp {mode : Fx0aMode} {w : Word} {o : Op} (h : decodeOp mode w = some o) :
    o.available mode = true ∧ w &&& o.mask = o.pattern := by
  have hrow := List.find?_some h
  rwa [Bool.and_eq_true, Op.matchesWord, beq_iff_eq] at hrow

theorem decodeOp_eq_some_iff {mode : Fx0aMode} {w : Word} {o : Op} :
    decodeOp mode w = some o ↔ o.available mode = true ∧ w &&& o.mask = o.pattern := by
  refine ⟨fits_of_decodeOp, fun ⟨hmode, hfits⟩ => ?_⟩
  cases hd : decodeOp mode w with
  | none =>
    have hnone := List.find?_eq_none.1 hd o o.mem_all
    simp [hmode, Op.matchesWord, hfits] at hnone
  | some p => rw [Op.eq_of_fits (fits_of_decodeOp hd).2 hfits]

/-- The tag found is the tag of the instruction decoded (R83). -/
@[simp] theorem Op.withOperands_op (x y : Nibble) (w : Word) (o : Op) : (o.withOperands x y w).op = o := by
  cases o <;> rfl

theorem decode_eq_ok_iff {mode : Fx0aMode} {w : Word} {i : Instr} :
    decode mode w = .ok i ↔
      ∃ o, decodeOp mode w = some o ∧ o.withOperands (fieldX w) (fieldY w) w = i := by
  unfold decode
  cases decodeOp mode w <;> simp

/-! ### The fields of an encoded instruction (R81, R82) -/

theorem fieldX_or (p b : Word) : fieldX (p ||| b) = fieldX p ||| fieldX b := BitVec.extractLsb'_or

theorem fieldY_or (p b : Word) : fieldY (p ||| b) = fieldY p ||| fieldY b := BitVec.extractLsb'_or

theorem fieldN_or (p b : Word) : fieldN (p ||| b) = fieldN p ||| fieldN b := BitVec.extractLsb'_or

theorem fieldKK_or (p b : Word) : fieldKK (p ||| b) = fieldKK p ||| fieldKK b := BitVec.extractLsb'_or

theorem fieldNNN_or (p b : Word) : fieldNNN (p ||| b) = fieldNNN p ||| fieldNNN b := BitVec.extractLsb'_or

theorem fieldNNN_addrBits (nnn : Addr12) : fieldNNN ((0 : Nibble) ++ nnn) = nnn :=
  BitVec.extractLsb'_append_eq_right

theorem fieldKK_byteBits (x : Nibble) (kk : Byte) : fieldKK ((0 : Nibble) ++ x ++ kk) = kk :=
  BitVec.extractLsb'_append_eq_right

theorem fieldX_byteBits (x : Nibble) (kk : Byte) : fieldX ((0 : Nibble) ++ x ++ kk) = x :=
  (BitVec.extractLsb'_append_eq_of_le (by decide)).trans BitVec.extractLsb'_append_eq_right

theorem fieldN_nibbleBits (x y n : Nibble) : fieldN ((0 : Nibble) ++ x ++ y ++ n) = n :=
  BitVec.extractLsb'_append_eq_right

theorem fieldY_nibbleBits (x y n : Nibble) : fieldY ((0 : Nibble) ++ x ++ y ++ n) = y :=
  (BitVec.extractLsb'_append_eq_of_le (by decide)).trans BitVec.extractLsb'_append_eq_right

theorem fieldX_nibbleBits (x y n : Nibble) : fieldX ((0 : Nibble) ++ x ++ y ++ n) = x :=
  (BitVec.extractLsb'_append_eq_of_le (by decide)).trans
    ((BitVec.extractLsb'_append_eq_of_le (by decide)).trans BitVec.extractLsb'_append_eq_right)

theorem withOperands_encode (i : Instr) :
    i.op.withOperands (fieldX (encode i)) (fieldY (encode i)) (encode i) = i := by
  cases i
  all_goals
    simp only [encode, Instr.op, Op.pattern, Instr.operandBits, Op.withOperands, fieldX_or, fieldY_or, fieldN_or,
      fieldKK_or, fieldNNN_or, fieldNNN_addrBits, fieldKK_byteBits, fieldX_byteBits, fieldN_nibbleBits,
      fieldY_nibbleBits, fieldX_nibbleBits]
  all_goals simp [fieldX, fieldY, fieldN, fieldKK, fieldNNN]

/-! ### The bits a row leaves to its operands (R85) -/

section
variable (w : Word)

theorem addrBits_fields : (0 : Nibble) ++ fieldNNN w = w &&& ~~~0xF000 := by
  apply BitVec.eq_of_getLsbD_eq
  intro i hi
  rw [getLsbD_addrBits]
  interval_cases i <;> simp [fieldNNN]

theorem byteBits_fields : (0 : Nibble) ++ fieldX w ++ fieldKK w = w &&& ~~~0xF000 := by
  apply BitVec.eq_of_getLsbD_eq
  intro i hi
  rw [getLsbD_byteBits]
  interval_cases i <;> simp [fieldX, fieldKK]

theorem regBits_fields : (0 : Nibble) ++ fieldX w ++ fieldY w ++ (0 : Nibble) = w &&& ~~~0xF00F := by
  apply BitVec.eq_of_getLsbD_eq
  intro i hi
  rw [getLsbD_nibbleBits]
  interval_cases i <;> simp [fieldX, fieldY]

theorem drawBits_fields : (0 : Nibble) ++ fieldX w ++ fieldY w ++ fieldN w = w &&& ~~~0xF000 := by
  apply BitVec.eq_of_getLsbD_eq
  intro i hi
  rw [getLsbD_nibbleBits]
  interval_cases i <;> simp [fieldX, fieldY, fieldN]

theorem keyBits_fields : (0 : Nibble) ++ fieldX w ++ (0 : Byte) = w &&& ~~~0xF0FF := by
  apply BitVec.eq_of_getLsbD_eq
  intro i hi
  rw [getLsbD_byteBits]
  interval_cases i <;> simp [fieldX]

/-- The operands read from a word, put back in their places, are the bits outside the row's mask. -/
theorem Op.operandBits_withOperands (o : Op) :
    (o.withOperands (fieldX w) (fieldY w) w).operandBits = w &&& ~~~o.mask := by
  cases o
  case cls | ret => exact BitVec.and_zero.symm
  case jp | call | ldIA | jpV0 => exact addrBits_fields w
  case seVB | sneVB | ldVB | addVB | rnd => exact byteBits_fields w
  case drw => exact drawBits_fields w
  case skp | sknp | ldVDT | ldVK | ldDTV | ldSTV | addIV | ldFV | ldBV | ldMV | ldVM => exact keyBits_fields w
  all_goals exact regBits_fields w

theorem and_mask_or_and_not_mask (m : Word) : w &&& m ||| w &&& ~~~m = w := by
  rw [← BitVec.and_or_distrib_left, BitVec.or_not_self, BitVec.and_allOnes]

/-- A word that fits a row is that row's pattern with the operands read from it. -/
theorem encode_withOperands {o : Op} (h : w &&& o.mask = o.pattern) :
    encode (o.withOperands (fieldX w) (fieldY w) w) = w := by
  rw [encode, Op.withOperands_op, Op.operandBits_withOperands, ← h, and_mask_or_and_not_mask]

end

/-! ### Bytes (R80, spec/20_memory.md R56) -/

@[simp] theorem wordOfBytes_hiByte_loByte (w : Word) : wordOfBytes (hiByte w) (loByte w) = w := by
  apply BitVec.eq_of_toNat_eq
  rw [Machine.toNat_wordOfBytes, Machine.toNat_hiByte, Machine.toNat_loByte]
  omega

theorem decodeBytes_encodeBytes {mode : Fx0aMode} {i : Instr} (h : decode mode (encode i) = .ok i)
    (rest : List Byte) : decodeBytes mode (encodeBytes i ++ rest) = .ok (i, rest) := by
  simp [encodeBytes, decodeBytes, h]

open Laws.EncodeFitsRow in
/-- The word of an instruction fits its own row, whatever the operands. -/
theorem encode_fits (i : Instr) : encode i &&& i.op.mask = i.op.pattern := by
  cases i
  exacts [cls, ret, jp _, call _, seVB _ _, sneVB _ _, seVV _ _, ldVB _ _, addVB _ _, ldVV _ _, orVV _ _,
    andVV _ _, xorVV _ _, addVV _ _, subVV _ _, shrVV _ _, subnVV _ _, shlVV _ _, sneVV _ _, ldIA _, jpV0 _,
    rnd _ _, drw _ _ _, skp _, sknp _, ldVDT _, ldVK _, ldDTV _, ldSTV _, addIV _, ldFV _, ldBV _, ldMV _,
    ldVM _]

/-! ### The obligations -/

/-- Settles O1: the word fits the tag's row, so decoding finds that tag, and the operand fields are where the
encoder put them. -/
theorem decodeInvertsEncode : Obligations.DecodeInvertsEncode := by
  intro mode i rest hmode
  have hdecode : decode mode (encode i) = .ok i :=
    decode_eq_ok_iff.2 ⟨i.op, decodeOp_eq_some_iff.2 ⟨hmode, encode_fits i⟩, withOperands_encode i⟩
  exact ⟨hdecode, decodeBytes_encodeBytes hdecode rest⟩

/-- Settles O2: the row's mask and the operand fields together are the whole word. -/
theorem encodeInvertsDecode : Obligations.EncodeInvertsDecode := by
  intro mode w i h
  obtain ⟨o, hd, rfl⟩ := decode_eq_ok_iff.1 h
  obtain ⟨hmode, hfits⟩ := decodeOp_eq_some_iff.1 hd
  exact ⟨encode_withOperands w hfits, by rwa [Instr.wellFormed, Op.withOperands_op]⟩

/-- Settles O3: the rows are disjoint, so the first that fits is the only one; and an instruction raises a
failing poll or an access past memory, nothing else. -/
theorem decodeFindsTheUniqueRow : Obligations.DecodeFindsTheUniqueRow := by
  refine ⟨fun mode w o => decodeOp_eq_some_iff, fun o p w => Op.eq_of_fits, fun mode w => ?none,
    fun i s t w pc h => ?raises⟩
  case none =>
    rw [Option.eq_none_iff_forall_not_mem]
    exact forall_congr' fun o => by rw [Option.mem_def, decodeOp_eq_some_iff, not_and]
  case raises =>
    obtain ⟨he, -⟩ | ⟨⟨a, n, d, he⟩, -⟩ := Machine.exec_fatal h <;> cases he

/-- Settles O5: by running the decoder on each word. -/
theorem sampleWordsDecode : Obligations.SampleWordsDecode :=
  ⟨rfl, rfl, rfl, rfl, rfl, rfl, rfl, rfl, rfl, rfl, rfl, rfl, rfl, rfl, rfl⟩

end Sys2Proof

namespace Sys2Proof.Machine

/-! ### The latched instruction and its tag (spec/10_state.md R31) -/

theorem latched_eq_some_iff {s : State} {i : Instr} :
    s.latched = some i ↔ ∃ o, s.dec.op = some o ∧ o.withOperands s.vx s.vy s.dec.word = i :=
  Option.map_eq_some_iff

theorem op_of_latched {s : State} {i : Instr} (h : s.latched = some i) : s.dec.op = some i.op := by
  obtain ⟨o, ho, rfl⟩ := latched_eq_some_iff.1 h
  rw [ho, Op.withOperands_op]

/-! ### The invariant is about the block, not the scheduler (spec/60_exceptions.md R250) -/

theorem Inv.of_bookkeeping {t : State} (h : Inv t) (q : Sched) (i : Inputs) :
    Inv { t with sched := q, inputs := i } :=
  ⟨h.wf, h.below, h.display, h.running, h.latch, h.wait⟩

theorem Inv.afterCycle {s t : State} (h : Inv t) : Inv (afterCycle s t) := by
  obtain ⟨q, i, e⟩ := afterCycle_shape s t
  exact e ▸ h.of_bookkeeping q i

theorem Inv.afterInterrupt {s t : State} (h : Inv t) : Inv (afterInterrupt s t) := by
  obtain ⟨q, i, e⟩ := afterInterrupt_shape s t
  exact e ▸ h.of_bookkeeping q i

/-! ### Each call keeps the invariant -/

section
variable {s t : State} (inv : Inv s)
include inv

/-- The service ends a wait and leaves the latch (R240, R245). -/
theorem Inv.interrupt (h : interrupt s = .next t) : Inv t := by
  have kept := interrupt_serviced h
  constructor
  case wf => exact kept.mem ▸ inv.wf
  case below => rw [kept.mem, kept.cfg]; exact inv.below
  case display => rw [kept.display, kept.cfg, inv.display]
  case running => rw [kept.halted, inv.running]
  case latch =>
    intro hcore
    have hs : s.core ≠ .fetchDecode := fun hs => hcore (by simp [kept.core, hs])
    simpa only [LatchConsistent, kept.dec, kept.cfg, kept.vx, kept.vy] using inv.latch hs
  case wait =>
    intro hcore
    rw [kept.core] at hcore
    split at hcore
    · cases hcore
    · contradiction

/-- A fetch latches the row found with the word's nibbles, in phase one (R101). -/
theorem Inv.fetchDecode (h : fetchDecode s = .next t) : Inv t := by
  obtain ⟨-, e⟩ | ⟨-, w, rfl, ⟨-, e⟩ | ⟨o, hrow, e⟩⟩ := fetchDecode_cases s <;> cases e.symm.trans h
  exact ⟨inv.wf, inv.below, inv.display, inv.running, fun _ => ⟨o, rfl, hrow, rfl, rfl, nofun⟩, nofun⟩

/-- An execute leaves `FetchDecode`, where nothing is claimed of the latch, or `DRW`'s wait (R105). -/
theorem Inv.exec {i : Instr} (hcore : s.core = .execute) (hlatched : s.latched = some i)
    (h : exec i s = .next t) : Inv t := by
  have kept := exec_keeps h
  obtain ⟨hwait, hdone⟩ := onlyDrawPhaseOneWaits i s t h
  have hop : t.dec.op = some i.op := kept.op.trans (op_of_latched hlatched)
  have hdraw : t.core ≠ .fetchDecode → i.op = .drw ∧ t.dec.phase = .two := fun hne => by
    by_cases hone : i.op = .drw ∧ s.dec.phase = .one
    · exact ⟨hone.1, (hwait hone).2⟩
    · exact absurd (hdone hone).1 hne
  constructor
  case wf => exact kept.wf inv.wf
  case below => exact kept.cfg ▸ kept.below inv.display inv.below
  case display => rw [kept.display, kept.cfg, inv.display]
  case running => rw [kept.halted, inv.running]
  case latch =>
    intro hne
    obtain ⟨o, ho, hrow, hvx, hvy, -⟩ := inv.latch (by simp [hcore])
    refine ⟨o, by rw [kept.op, ho], by rwa [kept.cfg, kept.word], by rw [kept.vx, kept.word, hvx],
      by rw [kept.vy, kept.word, hvy], fun _ => ?_⟩
    rw [← (hdraw hne).1, ← Option.some_inj, ← ho, ← kept.op, hop]
  case wait =>
    intro hw
    have hd := hdraw (by simp [hw])
    exact ⟨by rw [hop, hd.1], hd.2⟩

theorem Inv.cycle (h : cycle s = .next t) : Inv t := by
  obtain ⟨-, h⟩ | ⟨hcore, i, hlatched, h⟩ | ⟨-, rfl⟩ := cycle_next h
  · exact inv.fetchDecode h
  · exact inv.exec hcore hlatched h
  · exact ⟨inv.wf, inv.below, inv.display, inv.running, inv.latch, inv.wait⟩

end

/-! ### The obligations -/

/-- Settles O54: a step is one call of the scheduler, each call keeps the invariant, and the scheduler's own
data are no part of it. -/
theorem stepKeepsInvariant : Obligations.StepKeepsInvariant := by
  intro s t inv h
  obtain ⟨-, ⟨-, u, hu, rfl⟩ | ⟨-, u, hu, rfl⟩⟩ := step_next h
  · exact (inv.interrupt hu).afterInterrupt
  · exact (inv.cycle hu).afterCycle

end Sys2Proof.Machine

namespace Sys2Proof.Machine

/-! ### A step by the scheduler's call (spec/60_exceptions.md R250, R253, R254) -/

section
variable {s : State} (hrun : s.halted = .running)
include hrun

theorem step_of_cycle (hcall : nextCall s = .cycle) : step s = account (afterCycle s) (cycle s) := by
  simp only [step, hrun, schedule, hcall]

theorem step_of_interrupt (hcall : nextCall s = .interrupt) :
    step s = account (afterInterrupt s) (interrupt s) := by
  simp only [step, hrun, schedule, hcall]

theorem step_of_completed (hcall : nextCall s = .completed) : step s = .fault (.completed s) := by
  simp only [step, hrun, schedule, hcall]

end

/-- A halted block has no step (spec/10_state.md R34). -/
theorem step_of_fatal {s : State} {e : FatalError} (h : s.halted = .fatal e) : step s = .fault (.fatal e s) := by
  simp only [step, h]

theorem account_eq_fault_iff {after : State → State} {r : Result} {f : Fault} :
    account after r = .fault f ↔ r = .fault f := by
  cases r <;> simp [account]

theorem account_eq_refused_iff {after : State → State} {r : Result} {x : Refusal} :
    account after r = .refused x ↔ r = .refused x := by
  cases r <;> simp [account]

/-! ### The call that comes next -/

section
variable {s : State}

theorem nextCall_eq_cycle_iff (h : s.cfg.timing = .exact) : nextCall s = .cycle ↔ s.sched.t < frameNs := by
  simp only [nextCall, h]
  split_ifs <;> simp [*]

theorem nextCall_of_frame_spent (h : s.cfg.timing = .exact) (ht : frameNs ≤ s.sched.t) :
    nextCall s = if framesLeft s then .interrupt else .completed := by
  simp only [nextCall, h, if_neg (Nat.not_lt.2 ht)]

theorem nextCall_of_free (h : s.cfg.timing = .free) :
    nextCall s = if s.inputs.nextInterrupt then .interrupt else .cycle := by
  simp only [nextCall, h]

theorem framesLeft_eq_true_iff : framesLeft s = true ↔ ∀ n, s.cfg.numFrames = some n → s.sched.frames < n := by
  unfold framesLeft
  cases s.cfg.numFrames <;> simp

end

/-! ### The scheduler's bookkeeping in each mode -/

section
variable {s : State} (t : State)

theorem afterCycle_of_exact (h : s.cfg.timing = .exact) :
    afterCycle s t = { t with sched := { s.sched with t := s.sched.t + t.cost * cycleNs } } := by
  simp only [afterCycle, h]

theorem afterInterrupt_of_exact (h : s.cfg.timing = .exact) :
    afterInterrupt s t =
      { t with sched := { t := s.sched.t - frameNs + t.cost * cycleNs, frames := s.sched.frames + 1 } } := by
  simp only [afterInterrupt, h]

theorem afterCycle_of_free (h : s.cfg.timing = .free) :
    afterCycle s t = { t with inputs := t.inputs.dropInterrupt } := by
  simp only [afterCycle, h]

theorem afterInterrupt_of_free (h : s.cfg.timing = .free) :
    afterInterrupt s t = { t with inputs := t.inputs.dropInterrupt } := by
  simp only [afterInterrupt, h]

end

/-! ### What a `cycle()` keeps and raises (spec/40_core_cycle.md R108) -/

/-- The parameters, `display_pointer` and the free scheduler's choices. -/
theorem cycle_keeps {s t : State} (h : cycle s = .next t) :
    t.cfg = s.cfg ∧ t.displayPointer = s.displayPointer ∧ t.inputs.interrupts = s.inputs.interrupts := by
  obtain ⟨-, h⟩ | ⟨-, i, -, h⟩ | ⟨-, rfl⟩ := cycle_next h
  · obtain ⟨-, e⟩ | ⟨-, w, -, ⟨-, e⟩ | ⟨o, -, e⟩⟩ := fetchDecode_cases s <;> cases e.symm.trans h
    exact ⟨rfl, rfl, rfl⟩
  · have kept := exec_keeps h
    exact ⟨kept.cfg, kept.display, kept.choices⟩
  · exact ⟨rfl, rfl, rfl⟩

theorem cycle_of_latched {s : State} {i : Instr} (hcore : s.core = .execute) (h : s.latched = some i) :
    cycle s = exec i s := by
  simp only [cycle, hcore, executeLatched, h]

/-- Every fatal error of a `cycle()` is precise. -/
theorem preciseAt_of_cycle {s t : State} {e : FatalError} (h : cycle s = .fault (.fatal e t)) :
    PreciseAt s e t := by
  cases hcore : s.core with
  | fetchDecode =>
    simp only [cycle, hcore] at h
    obtain ⟨-, g⟩ | ⟨-, w, -, ⟨-, g⟩ | ⟨o, -, g⟩⟩ := fetchDecode_cases s <;> cases g.symm.trans h <;> rfl
  | execute =>
    cases hlatched : s.latched with
    | none => simp [cycle, hcore, executeLatched, hlatched] at h
    | some i =>
      rw [cycle_of_latched hcore hlatched] at h
      obtain ⟨rfl, rfl⟩ | ⟨⟨a, n, d, rfl⟩, rfl⟩ := exec_fatal h <;> rfl
  | waitInterrupt => cases (cycle_of_waitInterrupt hcore).symm.trans h

/-- A failing draw is precise, and so is a framebuffer past memory (spec/60_exceptions.md R232, R236). -/
theorem preciseAt_of_interrupt {s t : State} {e : FatalError} (h : interrupt s = .fault (.fatal e t)) :
    PreciseAt s e t := by
  obtain ⟨-, g⟩ | ⟨-, ⟨-, g⟩ | ⟨-, g⟩⟩ := interrupt_cases s <;> cases g.symm.trans h <;> rfl

theorem PreciseAt.halted {s t : State} {e : FatalError} (h : PreciseAt s e t) : t.halted = .fatal e := by
  cases e <;> cases h <;> rfl

theorem interrupt_ne_refused (s : State) (r : Refusal) : interrupt s ≠ .refused r := by
  intro h
  obtain ⟨-, g⟩ | ⟨-, ⟨-, g⟩ | ⟨-, g⟩⟩ := interrupt_cases s <;> cases g.symm.trans h

/-- Where the latch holds an instruction whenever one is due, no `cycle()` is refused (R31). -/
theorem cycle_ne_refused {s : State} (hlatch : s.core = .execute → LatchConsistent s) (r : Refusal) :
    cycle s ≠ .refused r := by
  intro h
  cases hcore : s.core with
  | fetchDecode =>
    simp only [cycle, hcore] at h
    obtain ⟨-, g⟩ | ⟨-, w, -, ⟨-, g⟩ | ⟨o, -, g⟩⟩ := fetchDecode_cases s <;> cases g.symm.trans h
  | execute =>
    obtain ⟨o, ho, -⟩ := hlatch hcore
    rw [cycle_of_latched hcore (latched_eq_some_iff.2 ⟨o, ho, rfl⟩)] at h
    exact exec_ne_refused _ _ _ h
  | waitInterrupt => cases (cycle_of_waitInterrupt hcore).symm.trans h

/-! ### The obligations -/

/-- Settles O57: no call writes either, and the scheduler's bookkeeping touches its own data. -/
theorem parametersNeverChange : Obligations.ParametersNeverChange := by
  intro s t h
  obtain ⟨-, ⟨-, u, hu, rfl⟩ | ⟨-, u, hu, rfl⟩⟩ := step_next h
  · have kept := interrupt_serviced hu
    obtain ⟨q, i, e⟩ := afterInterrupt_shape s u
    exact e ▸ ⟨kept.cfg, kept.display⟩
  · obtain ⟨hcfg, hdisplay, -⟩ := cycle_keeps hu
    obtain ⟨q, i, e⟩ := afterCycle_shape s u
    exact e ▸ ⟨hcfg, hdisplay⟩

/-- Settles O55: a fatal error is the fault of one call, passed on as it is, and a halted block has no step. -/
theorem fatalErrorsArePreciseAndFinal : Obligations.FatalErrorsArePreciseAndFinal := by
  intro s t e hrun h
  have precise : PreciseAt s e t := by
    cases hcall : nextCall s with
    | interrupt =>
      rw [step_of_interrupt hrun hcall, account_eq_fault_iff] at h
      exact preciseAt_of_interrupt h
    | cycle =>
      rw [step_of_cycle hrun hcall, account_eq_fault_iff] at h
      exact preciseAt_of_cycle h
    | completed => cases (step_of_completed hrun hcall).symm.trans h
  exact ⟨precise, precise.halted, step_of_fatal precise.halted⟩

/-- Settles O56: the one refusal is an execute without an instruction, and the invariant's latch excludes it. -/
theorem runningBlockIsNeverRefused : Obligations.RunningBlockIsNeverRefused := by
  intro s inv r h
  cases hcall : nextCall s with
  | interrupt =>
    rw [step_of_interrupt inv.running hcall, account_eq_refused_iff] at h
    exact interrupt_ne_refused s r h
  | cycle =>
    rw [step_of_cycle inv.running hcall, account_eq_refused_iff] at h
    exact cycle_ne_refused (fun hcore => inv.latch (by simp [hcore])) r h
  | completed => cases (step_of_completed inv.running hcall).symm.trans h

/-- Settles O46: the call began inside the frame, so what is past it is less than the call's own cost. -/
theorem carryIsBelowTheLastCost : Obligations.CarryIsBelowTheLastCost := by
  intro s t hexact hcall h ht
  have hinside : s.sched.t < 16666667 := (nextCall_eq_cycle_iff hexact).1 hcall
  obtain ⟨-, ⟨hother, -⟩ | ⟨-, u, -, rfl⟩⟩ := step_next h
  · cases hcall.symm.trans hother
  · rw [afterCycle_of_exact u hexact, cycleNs] at ht ⊢
    simp only at ht ⊢
    omega

/-- Settles O44: by the scheduler's time and the frames left. -/
theorem exactSchedulerStep : Obligations.ExactSchedulerStep := by
  intro s hrun hexact
  refine ⟨fun ht u hu => ?cycle, fun ht hleft u hu => ?interrupt, fun ht n hn hdone => ?completed⟩
  case cycle =>
    rw [step_of_cycle hrun ((nextCall_eq_cycle_iff hexact).2 ht), hu, account, afterCycle_of_exact u hexact,
      cycleNs]
  case interrupt =>
    have hcall : nextCall s = .interrupt := by
      rw [nextCall_of_frame_spent hexact ht, if_pos (framesLeft_eq_true_iff.2 hleft)]
    rw [step_of_interrupt hrun hcall, hu, account, afterInterrupt_of_exact u hexact, frameNs, cycleNs]
  case completed =>
    have hnone : ¬framesLeft s = true := fun h => Nat.not_lt.2 hdone (framesLeft_eq_true_iff.1 h n hn)
    exact step_of_completed hrun (by rw [nextCall_of_frame_spent hexact ht, if_neg hnone])

/-- Settles O45: no call takes a choice, so the one that stands first is still there to be dropped. -/
theorem freeSchedulerTakesTheInput : Obligations.FreeSchedulerTakesTheInput := by
  intro s b rest hrun hfree hstand u hu
  have hnext : s.inputs.nextInterrupt = b := by rw [Inputs.nextInterrupt, hstand]
  have hdrop (h : u.inputs.interrupts = s.inputs.interrupts) :
      u.inputs.dropInterrupt = { u.inputs with interrupts := rest } := by
    rw [Inputs.dropInterrupt, h, hstand]
  cases b with
  | true =>
    have hcall : nextCall s = .interrupt := by rw [nextCall_of_free hfree, if_pos hnext]
    rw [if_pos rfl] at hu
    refine ⟨?_, hdrop (interrupt_serviced hu).choices⟩
    rw [step_of_interrupt hrun hcall, hu, account, afterInterrupt_of_free u hfree]
  | false =>
    have hcall : nextCall s = .cycle := by rw [nextCall_of_free hfree, hnext, if_neg Bool.false_ne_true]
    rw [if_neg Bool.false_ne_true] at hu
    obtain ⟨-, -, hchoices⟩ := cycle_keeps hu
    refine ⟨?_, hdrop hchoices⟩
    rw [step_of_cycle hrun hcall, hu, account, afterCycle_of_free u hfree]

end Sys2Proof.Machine

namespace Sys2Proof.Machine

/-! ### The word at the pc (spec/40_core_cycle.md R101, spec/20_memory.md R56) -/

theorem cycle_fetch_outside {s : State} (hcore : s.core = .fetchDecode) (h : memSize s.cfg < s.pc.toNat + 2) :
    cycle s = raise (.memoryBounds s.pc.toNat 2 .read) s := by
  obtain ⟨-, e⟩ | ⟨hin, -⟩ := fetchDecode_cases s
  · simpa [cycle, hcore] using e
  · omega

theorem Memory.readBytes_two (m : Memory) (a : Nat) : m.readBytes a 2 = [m.read a, m.read (a + 1)] := rfl

/-- Two bytes that decode are a word that decodes. -/
theorem decode_readWord_of_decodeBytes {mode : Fx0aMode} {m : Memory} {a : Nat} {i : Instr} {rest : List Byte}
    (h : decodeBytes mode (m.readBytes a 2) = .ok (i, rest)) : decode mode (m.readWord a) = .ok i := by
  rw [Memory.readBytes_two, decodeBytes, ← Memory.readWord] at h
  split at h <;> cases h
  assumption

/-- The state a fetch of `w` as a row `o` leaves. -/
def fetchedAs (w : Word) (o : Op) (s : State) : State :=
  { s with
    vx := fieldX w, vy := fieldY w
    dec := { word := w, op := some o, phase := .one }
    pc := s.pc + 2
    core := .execute }.report (cyc s.cfg (fetchEntry w))

theorem latched_fetchedAs (w : Word) (o : Op) (s : State) :
    (fetchedAs w o s).latched = some (o.withOperands (fieldX w) (fieldY w) w) := rfl

/-- The scheduler's bookkeeping leaves the latched instruction. -/
theorem afterCycle_latched (s t : State) : (afterCycle s t).latched = t.latched := by
  obtain ⟨q, i, e⟩ := afterCycle_shape s t
  rw [e]
  rfl

/-- The step that executes the latched instruction (R103, R106). -/
theorem step_of_latched {s : State} {i : Instr} (hrun : s.halted = .running) (hcore : s.core = .execute)
    (hlatched : s.latched = some i) (hcall : nextCall s = .cycle) :
    step s = account (afterCycle s) (exec i s) := by
  rw [step_of_cycle hrun hcall, cycle_of_latched hcore hlatched]

/-! ### The placement of one word (notes/assumptions/10.md) -/

/-- Making a `cycle()` due touches the scheduler's data and choices only. -/
theorem cycleDue_shape (s : State) : ∃ q i, cycleDue s = { s with sched := q, inputs := i } := by
  unfold cycleDue
  split
  · split
    · exact ⟨s.sched, s.inputs, rfl⟩
    · exact ⟨_, s.inputs, rfl⟩
  · exact ⟨s.sched, _, rfl⟩

theorem nextCall_cycleDue (s : State) : nextCall (cycleDue s) = .cycle := by
  cases h : s.cfg.timing with
  | exact =>
    simp only [cycleDue, h]
    split
    next ht => exact (nextCall_eq_cycle_iff h).2 ht
    next => exact (nextCall_eq_cycle_iff (s := { s with sched := { s.sched with t := 0 } }) h).2 (Nat.succ_pos _)
  | free =>
    simp only [cycleDue, h]
    exact nextCall_of_free h

/-- The scheduler decides by the parameters, its own data and its choices. -/
theorem nextCall_congr {s t : State} (hcfg : t.cfg = s.cfg) (hsched : t.sched = s.sched)
    (hinputs : t.inputs = s.inputs) : nextCall t = nextCall s := by
  rw [nextCall, nextCall, framesLeft, framesLeft, hcfg, hsched, hinputs]

/-- The block with `w` stored at the pc, before its fetch. -/
def storedAtPc (s : State) (w : Word) : State :=
  { s with mem := s.mem.writeBytes s.pc.toNat [hiByte w, loByte w], core := .fetchDecode, halted := .running }

/-- A word stored as its two bytes reads back. -/
theorem Memory.readWord_writeBytes (m : Memory) (a : Nat) (w : Word) :
    (m.writeBytes a [hiByte w, loByte w]).readWord a = w := by
  simp [Memory.readWord, Memory.read_writeBytes]

theorem placeInstruction_of_decodeOp {s : State} {w : Word} {o : Op} (hin : s.pc.toNat + 2 ≤ memSize s.cfg)
    (hrow : decodeOp s.cfg.fx0aMode w = some o) :
    placeInstruction s w = fetchedAs w o (cycleDue (storedAtPc s w)) := by
  obtain ⟨q, i, hdue⟩ := cycleDue_shape (storedAtPc s w)
  have hfetch : fetchDecode (cycleDue (storedAtPc s w)) = .next (fetchedAs w o (cycleDue (storedAtPc s w))) := by
    rw [hdue]
    exact cycle_fetch_legal (s := { storedAtPc s w with sched := q, inputs := i }) rfl hin
      (Memory.readWord_writeBytes _ _ _) hrow
  simp only [placeInstruction, if_pos hin]
  rw [← storedAtPc, hfetch]

/-! ### The obligations -/

/-- Settles O7: by the bound of the fetch's read, and then by the row. -/
theorem fetchFaultsArePrecise : Obligations.FetchFaultsArePrecise := fun _ hcore =>
  ⟨cycle_fetch_outside hcore, fun _ hin hword hnone => cycle_fetch_illegal hcore hin hword.symm hnone⟩

/-- Settles O8: the fetch latches the instruction its word decodes to, and the latch says what is executed. -/
theorem stepRunsTheDecodedInstruction : Obligations.StepRunsTheDecodedInstruction := by
  refine ⟨fun s i hrun hcore hcall hin hbytes => ?fetch, fun t i => step_of_latched⟩
  obtain ⟨o, hrow, rfl⟩ := decode_eq_ok_iff.1 (decode_readWord_of_decodeBytes hbytes)
  have hfetch : cycle s = .next (fetchedAs _ o s) := cycle_fetch_legal hcore hin rfl hrow
  refine ⟨afterCycle s (fetchedAs _ o s), by rw [step_of_cycle hrun hcall, hfetch, account], ?_⟩
  obtain ⟨q, j, e⟩ := afterCycle_shape s (fetchedAs (s.mem.readWord s.pc.toNat) o s)
  rw [e]
  exact ⟨rfl, rfl, hrun, rfl, fun _ => rfl⟩

/-- Settles O9: the placement performs the fetch at a state where a `cycle()` is due, and the fetch leaves it
due. -/
theorem placedWordRunsNext : Obligations.PlacedWordRunsNext := by
  intro s w i hin hw hdecode
  obtain ⟨o, hrow, rfl⟩ := decode_eq_ok_iff.1 hdecode
  have hplaced : s.withFetchWord 16 w =
      fetchedAs (BitVec.ofNat 16 w) o (cycleDue (storedAtPc s (BitVec.ofNat 16 w))) := by
    rw [State.withFetchWord, Nat.mod_eq_of_lt hw, placeInstruction_of_decodeOp hin hrow]
  have hcall : nextCall (s.withFetchWord 16 w) = .cycle := by
    rw [hplaced, ← nextCall_cycleDue (storedAtPc s (BitVec.ofNat 16 w))]
    exact nextCall_congr rfl rfl rfl
  obtain ⟨q, j, hdue⟩ := cycleDue_shape (storedAtPc s (BitVec.ofNat 16 w))
  rw [hdue] at hplaced
  rw [hplaced] at hcall ⊢
  exact ⟨rfl, rfl, Memory.readWord_writeBytes _ _ _, step_of_latched rfl rfl rfl hcall⟩

end Sys2Proof.Machine

namespace Sys2Proof.Machine

/-! ### Updates and handlers that ignore costs (spec/70_reset_and_hazards.md R289)

An update ignores costs when forgetting them before it makes no difference but for costs. Two states alike but
for costs have the same forgotten state, so they then answer alike. -/

/-- An update of the state that, but for costs, does not depend on costs. -/
def UpdateIgnoresCosts (g : State → State) : Prop := ∀ s, (g s.forgetCosts).forgetCosts = (g s).forgetCosts

/-- A handler that, but for costs, does not depend on costs. -/
def HandlerIgnoresCosts (h : State → Except FatalError State) : Prop :=
  ∀ s, (h s.forgetCosts).map State.forgetCosts = (h s).map State.forgetCosts

theorem UpdateIgnoresCosts.congr {g : State → State} (hg : UpdateIgnoresCosts g) {s t : State}
    (h : s.forgetCosts = t.forgetCosts) : (g s).forgetCosts = (g t).forgetCosts := by
  rw [← hg s, h, hg t]

theorem UpdateIgnoresCosts.comp {f g : State → State} (hf : UpdateIgnoresCosts f) (hg : UpdateIgnoresCosts g) :
    UpdateIgnoresCosts fun s => f (g s) := fun s => hf.congr (hg s)

theorem ite_ignoresCosts {p : State → Prop} [DecidablePred p] {f g : State → State}
    (hp : ∀ s, p s.forgetCosts ↔ p s) (hf : UpdateIgnoresCosts f) (hg : UpdateIgnoresCosts g) :
    UpdateIgnoresCosts fun s => if p s then f s else g s := by
  intro s
  simp only [hp s]
  split
  · exact hf s
  · exact hg s

theorem logicFlag_ignoresCosts : UpdateIgnoresCosts logicFlag := by
  intro s
  have hmode : s.forgetCosts.cfg.logicVf = s.cfg.logicVf := rfl
  unfold logicFlag
  rw [hmode]
  cases s.cfg.logicVf <;> rfl

theorem skipIf_ignoresCosts (c : Bool) (entry : Bool → CycEntry) : UpdateIgnoresCosts (skipIf c entry) := by
  intro s
  cases c <;> rfl

theorem soundEdge_ignoresCosts (old new : Byte) : UpdateIgnoresCosts (soundEdge old new) :=
  ite_ignoresCosts (fun _ => Iff.rfl) (fun _ => rfl) (ite_ignoresCosts (fun _ => Iff.rfl) (fun _ => rfl) fun _ => rfl)

theorem tickGeneral_ignoresCosts : UpdateIgnoresCosts tickGeneral :=
  ite_ignoresCosts (fun _ => Iff.rfl) (fun _ => rfl) fun _ => rfl

theorem tickTone_ignoresCosts : UpdateIgnoresCosts tickTone :=
  ite_ignoresCosts (fun _ => Iff.rfl) (fun _ => (soundEdge_ignoresCosts _ _).congr rfl) fun _ => rfl

theorem resumeDraw_ignoresCosts : UpdateIgnoresCosts resumeDraw :=
  ite_ignoresCosts (fun _ => Iff.rfl) (fun _ => rfl) fun _ => rfl

/-! ### Accesses under forgotten costs -/

theorem memWrite_forgetCosts (a : Nat) (bs : List Byte) (s : State) :
    memWrite a bs s.forgetCosts = (memWrite a bs s).map State.forgetCosts := by
  obtain ⟨h, e⟩ | ⟨h, e⟩ := memWrite_cases a bs s <;> rw [e]
  · exact memWrite_ok h
  · exact memWrite_error h

theorem poll_forgetCosts (s : State) :
    poll s.forgetCosts = (poll s).map (Prod.map id State.forgetCosts) := by
  have hnext : s.forgetCosts.inputs.nextKey = s.inputs.nextKey := rfl
  unfold poll
  rw [hnext]
  cases s.inputs.nextKey <;> rfl

theorem xorByte_forgetCosts (s : State) (c : Bool) (bl : Nat × Byte) :
    xorByte (s.forgetCosts, c) bl = (xorByte (s, c) bl).map (Prod.map State.forgetCosts id) := by
  rcases Nat.lt_or_ge bl.1 (memSize s.cfg) with h | h
  · rw [xorByte_ok h]
    exact xorByte_ok h
  · rw [xorByte_error h]
    exact xorByte_error h

theorem foldlM_xorByte_forgetCosts (blits : List (Nat × Byte)) (s : State) (c : Bool) :
    blits.foldlM xorByte (s.forgetCosts, c) =
      (blits.foldlM xorByte (s, c)).map (Prod.map State.forgetCosts id) := by
  induction blits generalizing s c with
  | nil => rfl
  | cons bl rest ih =>
    rw [List.foldlM_cons, List.foldlM_cons, xorByte_forgetCosts]
    cases xorByte (s, c) bl with
    | error e => rfl
    | ok t => exact ih t.1 t.2

/-! ### Handlers -/

theorem return_ignoresCosts {g : State → State} (hg : UpdateIgnoresCosts g) :
    HandlerIgnoresCosts fun s => return g s := fun s => congrArg Except.ok (hg s)

/-- A reported cost is forgotten. -/
theorem report_ignoresCosts {g : State → State} {cost : State → Nat} (hg : UpdateIgnoresCosts g) :
    UpdateIgnoresCosts fun s => (g s).report (cost s) := fun s => hg s

/-- An access that answers alike but for the costs in its answer, then a rest that ignores costs. -/
theorem bind_ignoresCosts {α : Type} {φ : α → α} {x : State → Except FatalError α}
    {f : State → α → Except FatalError State} (hx : ∀ s, x s.forgetCosts = (x s).map φ)
    (hf : ∀ s a, (f s.forgetCosts (φ a)).map State.forgetCosts = (f s a).map State.forgetCosts) :
    HandlerIgnoresCosts fun s => x s >>= f s := by
  intro s
  simp only [hx s]
  cases x s with
  | error e => rfl
  | ok a => exact hf s a

/-- A read answers no state. -/
theorem read_ignoresCosts {α : Type} {x : State → Except FatalError α} {g : State → α → State}
    (hx : ∀ s, x s.forgetCosts = x s) (hg : ∀ s a, (g s.forgetCosts a).forgetCosts = (g s a).forgetCosts) :
    HandlerIgnoresCosts fun s => x s >>= fun a => return g s a :=
  bind_ignoresCosts (φ := id) (fun s => by rw [hx, Except.map_id]; rfl) fun s a => congrArg Except.ok (hg s a)

theorem drwPhaseTwo_ignoresCosts (x y n : Nibble) : HandlerIgnoresCosts (drwPhaseTwo x y n) :=
  bind_ignoresCosts (fun s => foldlM_xorByte_forgetCosts _ s false) fun _ _ => rfl

/-- An execute answers alike but for costs: its handler does, and a fatal error is raised without them. -/
theorem forgetCosts_execute {h : State → Except FatalError State} (hh : HandlerIgnoresCosts h) (s : State) :
    forgetCosts (execute s.forgetCosts h) = forgetCosts (execute s h) := by
  have hrun : (h { s.forgetCosts with core := .fetchDecode }).map State.forgetCosts =
      (h { s with core := .fetchDecode }).map State.forgetCosts := hh { s with core := .fetchDecode }
  obtain ⟨t, ht, e⟩ | ⟨x, ht, e⟩ := execute_cases s h <;>
    obtain ⟨t', ht', e'⟩ | ⟨x', ht', e'⟩ := execute_cases s.forgetCosts h <;>
    rw [ht, ht'] at hrun <;> rw [e, e']
  · exact congrArg Host.Outcome.next (Except.ok.inj hrun)
  · cases hrun
  · cases hrun
  · cases Except.error.inj hrun
    cases x <;> rfl

/-! ### Calls -/

/-- Every instruction answers alike but for costs. The cases are the shapes of a handler: one write, one read,
one poll, or updates alone. -/
theorem forgetCosts_exec (i : Instr) (s : State) :
    forgetCosts (exec i s.forgetCosts) = forgetCosts (exec i s) := by
  cases i
  case drw x y n =>
    cases hphase : s.dec.phase with
    | one =>
      by_cases hin : n = 0 ∨ s.i.toNat + n.toNat ≤ memSize s.cfg
      · rw [exec_drw_phaseOne_of_inside hphase hin, exec_drw_phaseOne_of_inside (s := s.forgetCosts) hphase hin]
        rfl
      · obtain ⟨hn, hout⟩ := not_or.1 hin
        rw [exec_drw_phaseOne_of_outside hphase hn (Nat.not_le.1 hout),
          exec_drw_phaseOne_of_outside (s := s.forgetCosts) hphase hn (Nat.not_le.1 hout)]
        rfl
    | two =>
      rw [exec_drw_of_phase_two hphase, exec_drw_of_phase_two (s := s.forgetCosts) hphase]
      exact forgetCosts_execute (drwPhaseTwo_ignoresCosts x y n) s
  all_goals
    simp only [exec, execCls, execRet, execJp, execCall, execSeVB, execSneVB, execSeVV, execSneVV, execLdVB,
      execAddVB, execLdVV, execOrVV, execAndVV, execXorVV, execAddVV, execSubVV, execShrVV, execSubnVV,
      execShlVV, execLdIA, execJpV0, execRnd, execSkp, execSknp, execLdVDT, execLdVK, execLdDTV, execLdSTV,
      execAddIV, execLdFV, execLdBV, execLdMV, execLdVM]
    refine forgetCosts_execute ?_ s
  case cls | call | ldBV | ldMV => exact bind_ignoresCosts (fun s => memWrite_forgetCosts _ _ s) fun _ _ => rfl
  case ret | ldVM => exact read_ignoresCosts (fun _ => rfl) fun _ _ => rfl
  case orVV | andVV | xorVV =>
    exact return_ignoresCosts (report_ignoresCosts fun _ => logicFlag_ignoresCosts.congr rfl)
  case seVB | sneVB | seVV | sneVV => exact return_ignoresCosts fun s => skipIf_ignoresCosts _ _ s
  case skp | sknp =>
    exact bind_ignoresCosts poll_forgetCosts fun s a => congrArg Except.ok (skipIf_ignoresCosts _ _ a.2)
  case ldVK =>
    refine bind_ignoresCosts poll_forgetCosts fun s a => ?_
    obtain ⟨answer, t⟩ := a
    cases answer <;> rfl
  case ldSTV => exact return_ignoresCosts (report_ignoresCosts fun _ => (soundEdge_ignoresCosts _ _).congr rfl)
  all_goals exact return_ignoresCosts (report_ignoresCosts fun _ => rfl)

theorem forgetCosts_fetchDecode (s : State) :
    forgetCosts (fetchDecode s.forgetCosts) = forgetCosts (fetchDecode s) := by
  have hread : memReadWord s.forgetCosts.pc.toNat s.forgetCosts = memReadWord s.pc.toNat s := rfl
  have hmode : s.forgetCosts.cfg.fx0aMode = s.cfg.fx0aMode := rfl
  unfold fetchDecode
  rw [hread]
  cases memReadWord s.pc.toNat s with
  | error e => rfl
  | ok w =>
    simp only [hmode]
    cases decodeOp s.cfg.fx0aMode w <;> rfl

theorem forgetCosts_cycle (s : State) : forgetCosts (cycle s.forgetCosts) = forgetCosts (cycle s) := by
  have hcore : s.forgetCosts.core = s.core := rfl
  have hlatched : s.forgetCosts.latched = s.latched := rfl
  unfold cycle
  rw [hcore]
  cases s.core with
  | fetchDecode => exact forgetCosts_fetchDecode s
  | execute =>
    simp only [executeLatched, hlatched]
    cases s.latched with
    | none => rfl
    | some i => exact forgetCosts_exec i s
  | waitInterrupt => rfl

theorem forgetCosts_interrupt (s : State) :
    forgetCosts (interrupt s.forgetCosts) = forgetCosts (interrupt s) := by
  have hread : memRead s.forgetCosts.displayPointer.toNat displaySize s.forgetCosts =
    memRead s.displayPointer.toNat displaySize s := rfl
  have hdraw : s.forgetCosts.inputs.nextDraw = s.inputs.nextDraw := rfl
  unfold interrupt
  rw [hread]
  cases memRead s.displayPointer.toNat displaySize s with
  | error e => rfl
  | ok framebuffer =>
    simp only [hdraw]
    cases s.inputs.nextDraw
    · exact congrArg Host.Outcome.next
        ((resumeDraw_ignoresCosts.comp (tickTone_ignoresCosts.comp tickGeneral_ignoresCosts)).congr rfl)
    · rfl

/-- Bookkeeping that ignores costs may be done after they are forgotten. -/
theorem forgetCosts_account {f : State → State} (hf : UpdateIgnoresCosts f) (r : Result) :
    forgetCosts (account f (forgetCosts r)) = forgetCosts (account f r) := by
  cases r with
  | next t => exact congrArg Host.Outcome.next (hf t)
  | fault x => cases x <;> rfl
  | refused x => rfl

theorem forgetCosts_account_congr {f : State → State} (hf : UpdateIgnoresCosts f) {r r' : Result}
    (h : forgetCosts r = forgetCosts r') : forgetCosts (account f r) = forgetCosts (account f r') := by
  rw [← forgetCosts_account hf r, h, forgetCosts_account hf r']

/-! ### A step in free mode (spec/60_exceptions.md R253) -/

/-- The free scheduler's bookkeeping, after either call. -/
def dropChoice (t : State) : State := { t with inputs := t.inputs.dropInterrupt }

theorem afterInterrupt_eq_dropChoice {s : State} (h : s.cfg.timing = .free) : afterInterrupt s = dropChoice :=
  funext (afterInterrupt_of_free · h)

theorem afterCycle_eq_dropChoice {s : State} (h : s.cfg.timing = .free) : afterCycle s = dropChoice :=
  funext (afterCycle_of_free · h)

theorem step_of_free {s : State} (hrun : s.halted = .running) (hfree : s.cfg.timing = .free) :
    step s = account dropChoice (if s.inputs.nextInterrupt then interrupt s else cycle s) := by
  have hcall := nextCall_of_free hfree
  split
  next h =>
    rw [if_pos h] at hcall
    rw [step_of_interrupt hrun hcall, afterInterrupt_eq_dropChoice hfree]
  next h =>
    rw [if_neg h] at hcall
    rw [step_of_cycle hrun hcall, afterCycle_eq_dropChoice hfree]

theorem forgetCosts_step_of_free {s : State} (hfree : s.cfg.timing = .free) :
    forgetCosts (step s.forgetCosts) = forgetCosts (step s) := by
  cases hrun : s.halted with
  | fatal e =>
    rw [step_of_fatal hrun, step_of_fatal (s := s.forgetCosts) hrun]
    rfl
  | running =>
    have hchoice : s.forgetCosts.inputs.nextInterrupt = s.inputs.nextInterrupt := rfl
    rw [step_of_free hrun hfree, step_of_free (s := s.forgetCosts) hrun hfree, hchoice]
    refine forgetCosts_account_congr (fun _ => rfl) ?_
    split
    · exact forgetCosts_interrupt s
    · exact forgetCosts_cycle s

/-! ### The obligation -/

/-- Settles O60: two states alike but for costs have one forgotten state, and each call answers at a state, but
for costs, what it answers there. -/
theorem costsOnlyPlaceInterrupts : Obligations.CostsOnlyPlaceInterrupts := by
  intro s s' h
  refine ⟨?cycle, ?interrupt, fun hfree => ?step⟩
  case cycle => rw [← forgetCosts_cycle s, h, forgetCosts_cycle s']
  case interrupt => rw [← forgetCosts_interrupt s, h, forgetCosts_interrupt s']
  case step =>
    have hmode : s'.cfg.timing = s.cfg.timing := (congrArg (·.cfg.timing) h).symm
    rw [← forgetCosts_step_of_free hfree, h, forgetCosts_step_of_free (hmode.trans hfree)]

end Sys2Proof.Machine

namespace Sys2Proof.Machine

/-! ### The registers an instruction writes (spec/10_state.md R24 to R28, R32) -/

/-- `DRW` in phase one writes memory, the latch, the core state and the cost. -/
theorem drwPhaseOne_registers {x n : Nibble} {s t : State} (h : drwPhaseOne x n s = .ok t) :
    t.i = s.i ∧ t.sp = s.sp ∧ t.generalTimer = s.generalTimer ∧ t.toneTimer = s.toneTimer ∧ t.seed = s.seed ∧
      t.pc = s.pc := by
  obtain ⟨-, -, e⟩ | ⟨-, e⟩ := drwPhaseOne_cases x n s <;> cases e.symm.trans h
  exact ⟨rfl, rfl, rfl, rfl, rfl, rfl⟩

theorem drwPhaseTwo_registers {x y n : Nibble} {s t : State} (h : drwPhaseTwo x y n s = .ok t) :
    t.i = s.i ∧ t.sp = s.sp ∧ t.generalTimer = s.generalTimer ∧ t.toneTimer = s.toneTimer ∧ t.seed = s.seed ∧
      t.pc = s.pc := by
  simp only [drwPhaseTwo, ok_bind, ok_return, Prod.exists] at h
  obtain ⟨u, c, hfold, rfl⟩ := h
  obtain ⟨m, rfl, -, -⟩ := foldlM_xorByte_shape hfold
  exact ⟨rfl, rfl, rfl, rfl, rfl, rfl⟩

/-- The writers of each register, over the whole table. The cases are the handlers' shapes, as in
`exec_core_dec_of_ne_drw`. -/
theorem exec_register_writers {i : Instr} {s t : State} (h : exec i s = .next t) :
    (i.op ∉ [.ldIA, .addIV, .ldFV, .ldMV, .ldVM] → t.i = s.i) ∧
    (i.op ∉ [.call, .ret] → t.sp = s.sp) ∧
    (i.op ≠ .ldDTV → t.generalTimer = s.generalTimer) ∧
    (i.op ≠ .ldSTV → t.toneTimer = s.toneTimer) ∧
    (i.op ≠ .rnd → t.seed = s.seed) ∧
    (i.op ∉ [.ret, .jp, .call, .seVB, .sneVB, .seVV, .sneVV, .jpV0, .skp, .sknp, .ldVK] → t.pc = s.pc) := by
  cases i
  case drw x y n =>
    suffices hkept : t.i = s.i ∧ t.sp = s.sp ∧ t.generalTimer = s.generalTimer ∧ t.toneTimer = s.toneTimer ∧
        t.seed = s.seed ∧ t.pc = s.pc by simp [hkept]
    cases hphase : s.dec.phase with
    | one =>
      rw [exec_drw_of_phase_one hphase, execute_eq_next] at h
      exact drwPhaseOne_registers (s := { s with core := .fetchDecode }) h
    | two =>
      rw [exec_drw_of_phase_two hphase, execute_eq_next] at h
      exact drwPhaseTwo_registers (s := { s with core := .fetchDecode }) h
  all_goals
    simp only [exec, execCls, execRet, execJp, execCall, execSeVB, execSneVB, execSeVV, execSneVV, execLdVB,
      execAddVB, execLdVV, execOrVV, execAndVV, execXorVV, execAddVV, execSubVV, execShrVV, execSubnVV,
      execShlVV, execLdIA, execJpV0, execRnd, execSkp, execSknp, execLdVDT, execLdVK, execLdDTV, execLdSTV,
      execAddIV, execLdFV, execLdBV, execLdMV, execLdVM] at h
    simp only [execute_eq_next, ok_bind, ok_return, memWrite_eq_ok, memRead_eq_ok, memReadWord_eq_ok,
      poll_eq_ok, Prod.exists] at h
  case cls | call | ldBV | ldMV | ret | ldVM =>
    obtain ⟨_, ⟨-, rfl⟩, rfl⟩ := h
    simp [Instr.op]
  case skp | sknp =>
    obtain ⟨_, _, ⟨-, -, rfl⟩, rfl⟩ := h
    simp [Instr.op]
  case ldVK =>
    obtain ⟨answer, _, ⟨-, -, rfl⟩, h⟩ := h
    cases answer <;> cases ok_return.1 h <;> simp [Instr.op]
  all_goals
    subst h
    simp [Instr.op]

/-! ### The bytes below the work area (spec/20_memory.md R51, R53) -/

theorem workAddr_le_varAddr (c : Config) : workAddr c ≤ varAddr c := by
  unfold workAddr varAddr
  omega

theorem workAddr_le_displayAddr (c : Config) : workAddr c ≤ displayAddr c := by
  unfold workAddr displayAddr
  omega

section
variable {s : State} {a : Nat} (ha : a < workAddr s.cfg)
include ha

theorem outside_bank_of_below_work : ¬(varAddr s.cfg ≤ a ∧ a < varAddr s.cfg + 16) := fun hin =>
  Nat.not_le.2 (Nat.lt_of_lt_of_le ha (workAddr_le_varAddr _)) hin.1

theorem ne_vAddr_of_below_work (x : Nibble) : a ≠ vAddr s.cfg x :=
  (Nat.lt_of_lt_of_le ha ((workAddr_le_varAddr _).trans (varAddr_le_vAddr _ x))).ne

/-- Neither phase of `DRW` writes below the work area: phase one writes that area, phase two the framebuffer
and `VF`. -/
theorem read_drw_below_work {x y n : Nibble} {t : State}
    (hdisplay : s.displayPointer = BitVec.ofNat 16 (displayAddr s.cfg)) (h : exec (.drw x y n) s = .next t) :
    t.mem.read a = s.mem.read a := by
  cases hphase : s.dec.phase with
  | one =>
    rw [exec_drw_of_phase_one hphase, execute_eq_next] at h
    obtain ⟨-, -, e⟩ | ⟨-, e⟩ := drwPhaseOne_cases x n { s with core := .fetchDecode } <;> cases e.symm.trans h
    exact Memory.read_writeBytes_outside _ _ _ fun hin => Nat.not_le.2 ha hin.1
  | two =>
    obtain ⟨u, hu, -, -, -, -, hkept, -⟩ := drawPhaseTwoXorsTheFramebuffer s x y n _ hphase hdisplay rfl
    cases hu.symm.trans h
    have hbelow := workAddr_le_displayAddr s.cfg
    exact hkept a (by omega) (ne_vAddr_of_below_work ha 0xF)

theorem read_cls_below_work {t : State}
    (hdisplay : s.displayPointer = BitVec.ofNat 16 (displayAddr s.cfg)) (h : exec .cls s = .next t) :
    t.mem.read a = s.mem.read a := by
  obtain ⟨u, hu, -, houtside, -⟩ := clearScreenZeroesTheDisplay s hdisplay
  cases hu.symm.trans h
  have hbelow := workAddr_le_displayAddr s.cfg
  exact houtside a (by omega)

/-- Every other instruction but the three writers writes memory in the variable bank alone. -/
theorem read_exec_below_work {i : Instr} {t : State} (hop : i.op ∉ [.ldBV, .ldMV, .call, .cls, .drw])
    (h : exec i s = .next t) : t.mem.read a = s.mem.read a := by
  have hbank := outside_bank_of_below_work ha
  have hreg := ne_vAddr_of_below_work ha
  cases i
  case ldBV | ldMV | call | cls | drw => simp [Instr.op] at hop
  all_goals
    simp only [exec, execRet, execJp, execSeVB, execSneVB, execSeVV, execSneVV, execLdVB,
      execAddVB, execLdVV, execOrVV, execAndVV, execXorVV, execAddVV, execSubVV, execShrVV, execSubnVV,
      execShlVV, execLdIA, execJpV0, execRnd, execSkp, execSknp, execLdVDT, execLdVK, execLdDTV, execLdSTV,
      execAddIV, execLdFV, execLdVM] at h
    simp only [execute_eq_next, ok_bind, ok_return, memRead_eq_ok, memReadWord_eq_ok, poll_eq_ok,
      Prod.exists] at h
  case ret =>
    obtain ⟨_, ⟨-, rfl⟩, rfl⟩ := h
    rfl
  case ldVM x =>
    obtain ⟨_, ⟨-, rfl⟩, rfl⟩ := h
    have := x.isLt
    exact Memory.read_writeBytes_outside _ _ _ (by rw [Memory.readBytes_length]; omega)
  case skp | sknp =>
    obtain ⟨_, _, ⟨-, -, rfl⟩, rfl⟩ := h
    simp
  case ldVK =>
    obtain ⟨answer, _, ⟨-, -, rfl⟩, h⟩ := h
    cases answer <;> cases ok_return.1 h <;> simp [hreg]
  case orVV | andVV | xorVV =>
    subst h
    rw [State.report_mem, read_logicFlag_outside _ (by exact hbank)]
    simp [hreg]
  all_goals
    subst h
    simp [setResultFlag, hreg]

end

/-! ### Drawing twice (spec/47_sprite.md R206, R209) -/

/-- What is drawn depends on the position registers and the work area alone. -/
theorem drawnByte_congr {s t : State} {x y n : Nibble} (hcfg : t.cfg = s.cfg) (hx : t.v x = s.v x)
    (hy : t.v y = s.v y)
    (hwork : ∀ a, workAddr s.cfg ≤ a → a < workAddr s.cfg + 32 → t.mem.read a = s.mem.read a) (r c : Nat) :
    drawnByte t x y n r c = drawnByte s x y n r c := by
  have hn := n.isLt
  simp only [drawnByte, hcfg, hx, hy]
  split
  · rw [hwork _ (by omega) (by omega), hwork _ (by omega) (by omega)]
  · rfl

/-- A pixel drawn over the picture a first drawing left is set exactly where it was clear before. -/
theorem xor_and_self (p d : Byte) : (p ^^^ d) &&& d = ~~~p &&& d := by
  ext i hi
  simp only [BitVec.getElem_and, BitVec.getElem_xor, BitVec.getElem_not]
  cases p[i] <;> cases d[i] <;> rfl

/-! ### The obligations -/

/-- Settles O58: `exec_register_writers`, and no instruction writes the latched word, its tag and its nibbles. -/
theorem registersHaveTheListedWriters : Obligations.RegistersHaveTheListedWriters := by
  intro i s t h
  obtain ⟨hi, hsp, hgeneral, htone, hseed, hpc⟩ := exec_register_writers h
  have kept := exec_keeps h
  exact ⟨hi, hsp, hgeneral, htone, hseed, hpc, kept.vx, kept.vy, kept.word, kept.op⟩

/-- Settles O59: the bank, the work area and the framebuffer lie above, and the other instructions write there
alone. -/
theorem programBytesHaveThreeWriters : Obligations.ProgramBytesHaveThreeWriters := by
  intro i s t hdisplay h hop a ha
  cases i
  case cls => exact read_cls_below_work ha hdisplay h
  case drw => exact read_drw_below_work ha hdisplay h
  case ldBV | ldMV | call => exact absurd (by simp [Instr.op]) hop
  all_goals exact read_exec_below_work ha (by simp [Instr.op]) h

/-- Settles O36: the second run draws the same bytes, since the first leaves the position registers and the work
area, and a byte XORed twice is the byte. -/
theorem drawingTwiceRestoresTheFramebuffer : Obligations.DrawingTwiceRestoresTheFramebuffer := by
  intro s x y n hphase hx hy hdisplay
  obtain ⟨t, ht, hscreen, -, -, hregs, hkept, -, -, -, -, frame⟩ :=
    drawPhaseTwoXorsTheFramebuffer s x y n _ hphase hdisplay rfl
  obtain ⟨-, -, -, -, hdisplay', hdec, -, -, -, hcfg, -⟩ := frame
  obtain ⟨u, hu, hscreen', hhit, hmiss, -⟩ :=
    drawPhaseTwoXorsTheFramebuffer t x y n _ (hdec ▸ hphase) (by rw [hdisplay', hcfg, hdisplay]) rfl
  have hsize := memSize_ge s.cfg
  have hdrawn : ∀ r c, drawnByte t x y n r c = drawnByte s x y n r c := by
    refine drawnByte_congr hcfg (hregs x hx) (hregs y hy) fun a ha ha' => hkept a ?_ ?_
    · unfold workAddr at ha ha'
      unfold displayAddr
      omega
    · unfold workAddr at ha ha'
      unfold vAddr varAddr
      omega
  have hcollide : ∀ r < 32, ∀ c < 8,
      screenByte t r c &&& drawnByte t x y n r c = ~~~(screenByte s r c) &&& drawnByte s x y n r c :=
    fun r hr c hc => by rw [hscreen r hr c hc, hdrawn, xor_and_self]
  refine ⟨t, u, ht, hu, fun r hr c hc => ?screen, ?hit, fun hclear => ?miss⟩
  case screen =>
    rw [hscreen' r hr c hc, hdrawn, hscreen r hr c hc, BitVec.xor_assoc, BitVec.xor_self, BitVec.xor_zero]
  case hit =>
    rintro ⟨r, hr, c, hc, hne⟩
    exact hhit ⟨r, hr, c, hc, by rwa [hcollide r hr c hc]⟩
  case miss => exact hmiss fun r hr c hc => by rw [hcollide r hr c hc, hclear r hr c hc]

end Sys2Proof.Machine

namespace Sys2Proof.Machine

/-! ### The keypad poll (spec/46_key.md R190, R191) -/

/-- A key is pressed when the answer is the key that the low nibble names. -/
theorem pressed_eq_decide (v : Byte) (a : KeyAnswer) :
    pressed v a = decide (∃ k : Nibble, a = .key k ∧ k.toNat = v.toNat % 16) := by
  rw [pressed, Bool.eq_iff_iff, beq_iff_eq, decide_eq_true_eq, ← toNat_keyOf]
  simp only [BitVec.toNat_inj, exists_eq_right]

/-- A failing poll is fatal before anything is written, and it has been made. -/
theorem execute_poll_of_failure {s : State} {f : State → KeyAnswer × State → Except FatalError State}
    (h : s.inputs.nextKey = .failure) :
    execute s (fun s => poll s >>= f s) = .fault (.fatal .inputFailure
      { s with
        halted := .fatal .inputFailure, inputs := s.inputs.dropKey, events := .poll .failure :: s.events }) := by
  have hpoll : poll { s with core := .fetchDecode } = .error .inputFailure := by
    simp only [poll, h]
  rw [execute_error (error_bind.2 (.inl hpoll)), afterFailing_inputFailure, State.polled, h]
  rfl

section
variable {s : State} (x : Nibble)

theorem exec_skp_of_answer (h : s.inputs.nextKey ≠ .failure) : exec (.skp x) s =
    .next (skipIf (pressed (s.v x) s.inputs.nextKey) .skp { s with core := .fetchDecode }.polled) := by
  rw [exec, execSkp, execute_eq_next]
  exact ok_bind.2 ⟨_, poll_eq_ok.2 ⟨h, rfl, rfl⟩, rfl⟩

theorem exec_sknp_of_answer (h : s.inputs.nextKey ≠ .failure) : exec (.sknp x) s =
    .next (skipIf (!pressed (s.v x) s.inputs.nextKey) .sknp { s with core := .fetchDecode }.polled) := by
  rw [exec, execSknp, execute_eq_next]
  exact ok_bind.2 ⟨_, poll_eq_ok.2 ⟨h, rfl, rfl⟩, rfl⟩

theorem exec_ldVK_of_key {k : Nibble} (h : s.inputs.nextKey = .key k) : exec (.ldVK x) s =
    .next (({ s with core := .fetchDecode }.polled.setV x (k.setWidth 8)).report (cyc s.cfg (.ldVK true))) := by
  rw [exec, execLdVK, execute_eq_next]
  exact ok_bind.2 ⟨(.key k, _), poll_eq_ok.2 ⟨by simp [h], h.symm, rfl⟩, rfl⟩

theorem exec_ldVK_of_none (h : s.inputs.nextKey = .none) : exec (.ldVK x) s =
    .next ({ { s with core := .fetchDecode }.polled with pc := s.pc - 2 }.report (cyc s.cfg (.ldVK false))) := by
  rw [exec, execLdVK, execute_eq_next]
  exact ok_bind.2 ⟨(.none, _), poll_eq_ok.2 ⟨by simp [h], h.symm, rfl⟩, rfl⟩

end

/-! ### The sound edges (spec/48_timer.md R223) -/

section
variable {s : State} {old new : Byte}

theorem soundEdge_of_start (hold : old = 0) (hnew : new ≠ 0) : soundEdge old new s = s.callSound .beep :=
  if_pos ⟨hold, hnew⟩

theorem soundEdge_of_end (hold : old ≠ 0) (hnew : new = 0) : soundEdge old new s = s.callSound .stop := by
  rw [soundEdge, if_neg fun h => hold h.1, if_pos ⟨hold, hnew⟩]

theorem soundEdge_of_no_edge (h : old = 0 ↔ new = 0) : soundEdge old new s = s := by
  rw [soundEdge, if_neg fun hstart => hstart.2 (h.1 hstart.1), if_neg fun hend => hend.1 (h.2 hend.2)]

end

/-- A call is logged with its answer, and a failure beside it. -/
theorem callSound_events (s : State) (call : SoundCall) :
    (s.callSound call).events = (if s.inputs.nextSound = .failure then [.soundFailure call] else []) ++
      .sound call s.inputs.nextSound :: s.events := by
  unfold State.callSound
  cases s.inputs.nextSound <;> rfl

theorem exec_ldSTV (x : Nibble) (s : State) : exec (.ldSTV x) s =
    .next ((soundEdge s.toneTimer (s.v x) { s with core := .fetchDecode, toneTimer := s.v x }).report
      (cyc s.cfg .ldSTV)) := rfl

/-! ### The calls an interrupt makes (spec/60_exceptions.md R237, R239) -/

theorem byte_sub_one_eq_zero_iff (b : Byte) : b - 1 = 0 ↔ b = 1 := by
  bv_omega

/-- The tone timer's tick calls `stop()` when it takes the timer to 0. -/
theorem tickTone_of_one {s : State} (h : s.toneTimer = 1) :
    tickTone s = State.callSound { s with toneTimer := 0, cost := s.cost + cyc s.cfg .intTt } .stop := by
  obtain ⟨hzero, -⟩ | ⟨hne, e⟩ := tickTone_cases s
  · rw [h] at hzero
    cases hzero
  · rw [e, soundEdge_of_end hne ((byte_sub_one_eq_zero_iff _).2 h), h]
    rfl

theorem tickTone_of_ne_one {s : State} (h : s.toneTimer ≠ 1) :
    (tickTone s).inputs = s.inputs ∧ (tickTone s).events = s.events := by
  obtain ⟨-, e⟩ | ⟨hne, e⟩ := tickTone_cases s <;> rw [e]
  · exact ⟨rfl, rfl⟩
  · rw [soundEdge_of_no_edge (iff_of_false hne fun hend => h ((byte_sub_one_eq_zero_iff _).1 hend))]
    exact ⟨rfl, rfl⟩

section
variable {s : State}

/-- Before the tone timer's tick the draw has been made, and no other call. -/
theorem frameServiced_eq_tickTone (s : State) : ∃ u, frameServiced s = resumeDraw (tickTone u) ∧
    u.toneTimer = s.toneTimer ∧ u.inputs = s.inputs.dropDraw ∧
    u.events = .draw (s.mem.readBytes s.displayPointer.toNat displaySize) s.inputs.nextDraw :: s.events :=
  ⟨_, rfl, by simp, by simp, by simp⟩

theorem frameServiced_of_ne_one (h : s.toneTimer ≠ 1) :
    (frameServiced s).inputs = s.inputs.dropDraw ∧ (frameServiced s).events =
      .draw (s.mem.readBytes s.displayPointer.toNat displaySize) s.inputs.nextDraw :: s.events := by
  obtain ⟨u, e, htone, hinputs, hevents⟩ := frameServiced_eq_tickTone s
  obtain ⟨hsame, hlog⟩ := tickTone_of_ne_one (htone ▸ h)
  rw [e, resumeDraw_inputs, resumeDraw_events, hsame, hlog]
  exact ⟨hinputs, hevents⟩

theorem frameServiced_of_one (h : s.toneTimer = 1) :
    (frameServiced s).inputs = s.inputs.dropDraw.dropSound ∧
    (frameServiced s).events =
      (if s.inputs.dropDraw.nextSound = .failure then [.soundFailure .stop] else []) ++
        .sound .stop s.inputs.dropDraw.nextSound ::
          .draw (s.mem.readBytes s.displayPointer.toNat displaySize) s.inputs.nextDraw :: s.events := by
  obtain ⟨u, e, htone, hinputs, hevents⟩ := frameServiced_eq_tickTone s
  rw [e, resumeDraw_inputs, resumeDraw_events, tickTone_of_one (htone.trans h), callSound_events,
    State.callSound_inputs, ← hinputs, ← hevents]
  exact ⟨rfl, rfl⟩

end

section
variable {s : State} (hdisplay : s.displayPointer = BitVec.ofNat 16 (displayAddr s.cfg))
include hdisplay

theorem framebuffer_inside : s.displayPointer.toNat + displaySize ≤ memSize s.cfg := by
  rw [hdisplay, displayAddr_toNat]
  exact displayArea_inside s.cfg

/-- What `display_pointer` at `DISPLAY_ADDR` hands the Display (R237). -/
theorem framebuffer_getD : ∀ k < 256,
    (s.mem.readBytes s.displayPointer.toNat displaySize).getD k 0 = s.mem.read (displayAddr s.cfg + k) := by
  rw [hdisplay, displayAddr_toNat]
  exact fun k hk => Memory.readBytes_getD _ _ _ _ hk

theorem interrupt_of_draw_ok (hdraw : s.inputs.nextDraw = .ok) : interrupt s = .next (frameServiced s) :=
  interrupt_eq_next_iff.2 ⟨framebuffer_inside hdisplay, hdraw, rfl⟩

end

/-! ### The obligations -/

/-- Settles O32: both handlers poll before anything else, and then skip on `pressed` or on its negation. -/
theorem keySkipsPollOnce : Obligations.KeySkipsPollOnce := by
  rintro s x _ rfl
  rw [← pressed_eq_decide]
  refine ⟨fun h => ⟨?skp, ?sknp⟩, fun h => ?failure⟩
  case skp => exact ⟨_, exec_skp_of_answer x h, by simp, fun _ => by simp, by simp, by simp [Executed, Frame]⟩
  case sknp =>
    exact ⟨_, exec_sknp_of_answer x h, by cases pressed (s.v x) s.inputs.nextKey <;> simp, fun _ => by simp,
      by simp, by simp [Executed, Frame]⟩
  case failure =>
    rw [exec, exec, execSkp, execSknp]
    exact ⟨execute_poll_of_failure h, execute_poll_of_failure h⟩

/-- Settles O33: `FX0A` is the row fatal mode takes away, and in retry mode the poll's answer decides. -/
theorem keyWaitRetries : Obligations.KeyWaitRetries := by
  refine ⟨fun w hmajor hlow => (decodeOp_eq_none_of_major_F hmajor).2 (.inr ⟨rfl, hlow⟩), fun s x _ => ?_⟩
  refine ⟨fun k h => ?key, fun h => ?none, fun h => ?failure⟩
  case key =>
    have hbank := bankIs_setV { s with core := .fetchDecode }.polled x (k.setWidth 8)
    rw [BitVec.ofNat_toNat]
    refine ⟨_, exec_ldVK_of_key x h, hbank, rfl, rfl, ?_⟩
    simp [Executed, Frame, h]
  case none =>
    refine ⟨_, exec_ldVK_of_none x h, rfl, fun _ => rfl, rfl, ?_⟩
    simp [Executed, Frame, h]
  case failure =>
    rw [exec, execLdVK]
    exact execute_poll_of_failure h

/-- Settles O39: by the three cases of a sound edge. -/
theorem toneTimerDrivesSound : Obligations.ToneTimerDrivesSound := by
  intro s x
  refine ⟨_, exec_ldSTV x s, by simp, fun _ => by simp, by simp, by simp, by simp [Executed, Frame],
    fun hold hnew => ?start, fun hold hnew => ?stop, fun h => ?none⟩
  case start =>
    rw [State.report_inputs, State.report_events, soundEdge_of_start hold hnew, callSound_events]
    exact ⟨rfl, rfl⟩
  case stop =>
    rw [State.report_inputs, State.report_events, soundEdge_of_end hold hnew, callSound_events]
    exact ⟨rfl, rfl⟩
  case none =>
    rw [soundEdge_of_no_edge h]
    exact ⟨rfl, rfl⟩

/-- Settles O42: the draw comes first and takes one answer, and the tone timer's tick may make one call more. -/
theorem interruptDrawsTheFramebuffer : Obligations.InterruptDrawsTheFramebuffer := by
  intro s t hdisplay h
  obtain ⟨-, hdraw, rfl⟩ := interrupt_eq_next_iff.1 h
  refine ⟨_, Memory.readBytes_length _ _ _, framebuffer_getD hdisplay,
    fun hne => hdraw ▸ frameServiced_of_ne_one hne, fun hone => ?_⟩
  obtain ⟨hinputs, hevents⟩ := frameServiced_of_one hone
  refine ⟨hinputs, ?_⟩
  rintro _ rfl
  rw [hevents, hdraw]
  rfl

/-- Settles O43: the framebuffer is read and drawn before anything is written. -/
theorem displayFailureIsFatal : Obligations.DisplayFailureIsFatal := by
  intro s hdisplay hdraw
  refine ⟨_, Memory.readBytes_length _ _ _, framebuffer_getD hdisplay, ?_⟩
  obtain ⟨hout, -⟩ | ⟨-, ⟨-, e⟩ | ⟨hok, -⟩⟩ := interrupt_cases s
  · exact absurd (framebuffer_inside hdisplay) (Nat.not_le.2 hout)
  · rw [e, State.drawn, hdraw]
    rfl
  · cases hdraw.symm.trans hok

end Sys2Proof.Machine

namespace Sys2Proof.Machine

/-! ### What every configuration fixes (spec/20_memory.md R51, R52, spec/70_reset_and_hazards.md R288) -/

theorem openCost_pos (c : Config) (e : CycEntry) : 1 ≤ openCost c e := Nat.le_max_left _ _

theorem skipCost_pos (c : Config) (noSkip skip : CycEntry) : 1 ≤ skipCost c noSkip skip :=
  (openCost_pos c skip).trans (Nat.le_max_left _ _)

/-- The stated entries are numbers, and an OPEN entry is brought to at least 1. -/
theorem cyc_pos (c : Config) (e : CycEntry) : 1 ≤ cyc c e := by
  cases e
  case fetch0 | fetch | wait | intBase | intGt | intTt | jp | call => exact Nat.succ_pos _
  case seVB skip | sneVB skip | seVV skip | sneVV skip =>
    cases skip
    · exact openCost_pos _ _
    · exact skipCost_pos _ _ _
  case addIV crossed =>
    cases crossed
    · exact openCost_pos _ _
    · rw [cyc]
      split
      · exact Nat.le_add_left _ _
      · exact openCost_pos _ _
  all_goals exact openCost_pos _ _

/-! ### The constructed state (R270 to R272) -/

theorem construct_of_fits {c : Config} {rom : List Byte} (low : Vector Byte 512) (seed0 : Word) (inputs : Inputs)
    (h : programAddr + rom.length ≤ memSize c) :
    construct c low seed0 inputs rom = .next { constructed c low seed0 inputs with
      mem := (constructed c low seed0 inputs).mem.writeBytes programAddr rom } := by
  have hwrite := memWrite_ok (a := programAddr) (bs := rom) (s := constructed c low seed0 inputs) h
  rw [construct, hwrite]

theorem construct_of_too_long {c : Config} {rom : List Byte} (low : Vector Byte 512) (seed0 : Word)
    (inputs : Inputs) (h : memSize c < programAddr + rom.length) :
    construct c low seed0 inputs rom =
      raise (.memoryBounds programAddr rom.length .write) (constructed c low seed0 inputs) := by
  have hwrite := memWrite_error (a := programAddr) (bs := rom) (s := constructed c low seed0 inputs) h
  rw [construct, hwrite]

theorem construct_eq_next_iff {c : Config} {low : Vector Byte 512} {seed0 : Word} {inputs : Inputs}
    {rom : List Byte} {s : State} :
    construct c low seed0 inputs rom = .next s ↔
      programAddr + rom.length ≤ memSize c ∧ s = { constructed c low seed0 inputs with
        mem := (constructed c low seed0 inputs).mem.writeBytes programAddr rom } := by
  rcases Nat.lt_or_ge (memSize c) (programAddr + rom.length) with h | h
  · simp [construct_of_too_long low seed0 inputs h, raise, h]
  · simp [construct_of_fits low seed0 inputs h, h, eq_comm]

section
variable (c : Config) (low : Vector Byte 512) (seed0 : Word) (inputs : Inputs)

/-- The low image stands at 0, and every other byte reads 0x00. -/
theorem read_constructed (a : Nat) :
    (constructed c low seed0 inputs).mem.read a = if h : a < 512 then low[a] else 0x00 := by
  rw [constructed, Memory.read_writeBytes, Vector.length_toList]
  split
  next h =>
    have ha : a < 512 := by omega
    rw [dif_pos ha]
    simp [ha]
  next h =>
    rw [dif_neg (by omega)]
    rfl

theorem read_constructed_of_lt {a : Nat} (h : a < 512) :
    (constructed c low seed0 inputs).mem.read a = low[a] := by
  rw [read_constructed, dif_pos h]

theorem read_constructed_of_ge {a : Nat} (h : 512 ≤ a) :
    (constructed c low seed0 inputs).mem.read a = 0x00 := by
  rw [read_constructed, dif_neg (Nat.not_lt.2 h)]

theorem wf_constructed : (constructed c low seed0 inputs).mem.wf :=
  Memory.wf_writeBytes (m := []) ⟨List.Pairwise.nil, nofun⟩ _ _

theorem below_constructed : (constructed c low seed0 inputs).mem.below (memSize c) := by
  have := memSize_ge c
  exact Memory.below_writeBytes (m := []) nofun _ (by rw [Vector.length_toList]; omega)

theorem stackAddr_toNat : (BitVec.ofNat 16 (stackAddr c)).toNat = stackAddr c := by
  have := memSize_le c
  rw [BitVec.toNat_ofNat, Nat.mod_eq_of_lt (by unfold stackAddr; omega)]

end

/-! ### The first call (R273) -/

/-- With a frame's time exactly spent, one left and a draw that answers ok, a step is the service. -/
theorem step_of_frame_just_spent {s : State} (hrun : s.halted = .running) (hexact : s.cfg.timing = .exact)
    (ht : s.sched.t = frameNs) (hleft : framesLeft s = true)
    (hdisplay : s.displayPointer = BitVec.ofNat 16 (displayAddr s.cfg)) (hdraw : s.inputs.nextDraw = .ok) :
    step s = .next { frameServiced s with
      sched := { t := (frameServiced s).cost * cycleNs, frames := s.sched.frames + 1 } } := by
  have hcall : nextCall s = .interrupt := by rw [nextCall_of_frame_spent hexact ht.ge, if_pos hleft]
  rw [step_of_interrupt hrun hcall, interrupt_of_draw_ok hdisplay hdraw, account,
    afterInterrupt_of_exact _ hexact, ht, Nat.sub_self, Nat.zero_add]

/-! ### The obligations -/

/-- Settles O48: by the bound of the one write, whose bytes lie above the low image. -/
theorem constructionLoadsImageAndRom : Obligations.ConstructionLoadsImageAndRom := by
  intro c low seed0 inputs rom
  refine ⟨fun h => ?fits, fun h => ?long⟩
  case fits =>
    refine ⟨_, construct_of_fits low seed0 inputs h, fun k hk => ?low, fun k hk => ?rom, fun a ha => ?rest, rfl,
      stackAddr_toNat c, rfl, rfl, rfl, rfl, displayAddr_toNat c, rfl, rfl, rfl, rfl, rfl, rfl, rfl, rfl⟩
    case low =>
      exact (Memory.read_writeBytes_outside _ _ _ (by unfold programAddr; omega)).trans
        (read_constructed_of_lt c low seed0 inputs hk)
    case rom => exact Memory.read_writeBytes_inside _ _ _ hk
    case rest =>
      exact (Memory.read_writeBytes_outside _ _ _ (by unfold programAddr; omega)).trans
        (read_constructed_of_ge c low seed0 inputs (by omega))
  case long =>
    exact ⟨_, construct_of_too_long low seed0 inputs h, rfl, fun _ => read_constructed_of_ge c low seed0 inputs⟩

/-- Settles O51: each constraint is in the definition of the entry it is about. -/
theorem openCostsAreConstrained : Obligations.OpenCostsAreConstrained := fun c =>
  ⟨cyc_pos c, openCost_lt_skipCost _ _ _, openCost_lt_skipCost _ _ _, openCost_lt_skipCost _ _ _,
    openCost_lt_skipCost _ _ _, cyc_addIV_ne c⟩

/-- Settles O50: every base is `MEM_SIZE` less a number, and `MEM_SIZE` is at least 0x400. -/
theorem regionsAreDisjointAndOrdered : Obligations.RegionsAreDisjointAndOrdered := by
  intro c
  have := memSize_ge c
  unfold programAddr stackRegionAddr stackAddr workAddr varAddr displayAddr rndTableAddr
  omega

/-- Settles O52: no byte is listed, and nothing is claimed of the latch in `FetchDecode`. -/
theorem resetMeetsInvariant : Obligations.ResetMeetsInvariant :=
  ⟨⟨List.Pairwise.nil, nofun⟩, nofun, rfl, rfl, fun h => absurd rfl h, nofun⟩

/-- Settles O53: the two writes lie in memory, and the block starts in `FetchDecode`. -/
theorem constructMeetsInvariant : Obligations.ConstructMeetsInvariant := by
  intro c low seed0 inputs rom s h
  obtain ⟨hfits, rfl⟩ := construct_eq_next_iff.1 h
  exact ⟨Memory.wf_writeBytes (wf_constructed c low seed0 inputs) _ _,
    Memory.below_writeBytes (below_constructed c low seed0 inputs) _ hfits, rfl, rfl, fun h => absurd rfl h, nofun⟩

/-- Settles O47: a construction opens with the first frame's time spent, so the interrupt comes first, and its
cost is less than the frame it opens. -/
theorem firstCallIsAnInterrupt : Obligations.FirstCallIsAnInterrupt := by
  intro c low seed0 inputs rom s hexact hframes hdraw h
  obtain ⟨-, hs⟩ := construct_eq_next_iff.1 h
  have hcfg : s.cfg = c := by rw [hs]; rfl
  have htone : s.toneTimer = 0 := by rw [hs]; rfl
  have hgeneral : s.generalTimer = 0 := by rw [hs]; rfl
  have hdisplay : s.displayPointer = BitVec.ofNat 16 (displayAddr s.cfg) := by rw [hs]; rfl
  have hdraw : s.inputs.nextDraw = .ok := by rw [hs]; exact hdraw
  have hexact : s.cfg.timing = .exact := by rw [hcfg, hexact]
  have hleft : framesLeft s = true := framesLeft_eq_true_iff.2 fun n hn => by
    rw [hs]
    exact Nat.pos_of_ne_zero fun hzero => hframes (by rw [← hcfg, hn, hzero])
  have kept := interrupt_serviced (interrupt_of_draw_ok hdisplay hdraw)
  have hcost : (frameServiced s).cost = 1831 := by
    rw [frameServiced_cost, hgeneral, htone]
    rfl
  refine ⟨_, step_of_frame_just_spent (by rw [hs]; rfl) hexact (by rw [hs]; rfl) hleft hdisplay hdraw, ?seed, hcost,
    ?general, ?tone, ?drawn, ?pc, ?core, kept.mem, ?next⟩
  case seed => exact (frameServiced_seed s).trans (by rw [hs]; rfl)
  case general => exact BitVec.eq_of_toNat_eq ((frameServiced_generalTimer s).trans (by rw [hgeneral]; rfl))
  case tone => exact BitVec.eq_of_toNat_eq ((frameServiced_toneTimer s).trans (by rw [htone]; rfl))
  case drawn =>
    obtain ⟨-, hevents⟩ := frameServiced_of_ne_one (s := s) (by rw [htone]; decide)
    refine hevents.trans ?_
    rw [hdraw, hdisplay, displayAddr_toNat, hcfg, show s.events = [] by rw [hs]; rfl]
    rfl
  case pc => exact kept.pc.trans (by rw [hs]; rfl)
  case core => exact kept.core.trans (by rw [hs]; rfl)
  case next =>
    refine (nextCall_eq_cycle_iff ?_).2 ?_
    · exact (congrArg _ kept.cfg).trans hexact
    · simp only [hcost]
      decide

end Sys2Proof.Machine
